-- ==== Sys2Proof/Word.lean ====
section
/-! DEFINITION. The word types of the core (spec/00_scope.md R9, R11; spec/30_encoding.md R60). -/

namespace Sys2Proof

/-- A 32-bit pattern: a register, the program counter, an instruction word (XLEN = 32, R9, R11). -/
abbrev Word := BitVec 32

/-- The index of a general register: a 5-bit unsigned number (R60). -/
abbrev RegIdx := BitVec 5

/-- An opcode or funct code: 6 bits (R59). -/
abbrev Code := BitVec 6

end Sys2Proof
end

