-- ==== Sys2Proof/Machine/Arith.lean ====
section
/-! DEFINITION. The arithmetic readings and operations on patterns (spec/00_scope.md R11–R13). -/

namespace Sys2Proof

/-- `u(v)`: the unsigned value of a pattern (R11). -/
def uVal (v : Word) : Int := (v.toNat : Int)

/-- `s(v)`: `u(v) - 2^32` where bit 31 is 1, else `u(v)` (R11, two's complement; UNVERIFIED, notes/assumptions/8.md). -/
def sVal (v : Word) : Int := if v.getLsbD 31 then uVal v - 2 ^ 32 else uVal v

/-- `bits32(n)`: the pattern of `n mod 2^32` (R11). -/
def bits32 (n : Int) : Word := BitVec.ofInt 32 n

/-- `bits64(n)`: the 64-bit pattern of `n` (R121, R122). -/
def bits64 (n : Int) : BitVec 64 := BitVec.ofInt 64 n

/-- `sext_32`: a 16-bit value widened by its sign bit (R12). -/
def sext32 (v : BitVec 16) : Word := v.signExtend 32

/-- `zext_32`: a 16-bit value widened by zeros (R12). -/
def zext32 (v : BitVec 16) : Word := v.setWidth 32

/-- `sext_64`: a 32-bit value widened by its sign bit (R12). -/
def sext64 (v : Word) : BitVec 64 := v.signExtend 64

/-- `zext_64`: a 32-bit value widened by zeros (R12). -/
def zext64 (v : Word) : BitVec 64 := v.setWidth 64

/-- `trunc_div`: integer division rounded toward zero (R13, decision D6). -/
def truncDiv (a b : Int) : Int := Int.tdiv a b

/-- `trunc_rem(a, b) = a - b * trunc_div(a, b)` (R13). -/
def truncRem (a b : Int) : Int := a - b * truncDiv a b

/-- The high half of a 64-bit pattern, bits 63:32 (R121). -/
def highHalf (p : BitVec 64) : Word := p.extractLsb' 32 32

/-- The low half of a 64-bit pattern, bits 31:0 (R121). -/
def lowHalf (p : BitVec 64) : Word := p.extractLsb' 0 32

end Sys2Proof
end

