-- ==== Sys2Proof/Machine/Flags.lean ====
section
/-! DEFINITION. The core has no flags, condition codes or predicate registers (spec/10_state.md R29): what a comparison
finds is a word, 1 or 0, for a general register (spec/41_alu_register.md R117, R118; spec/43_immediate.md R131, R132). -/

namespace Sys2Proof.Machine

/-- 1 where the condition holds, else 0 (R117). -/
def boolWord (b : Bool) : Word := if b then 0x00000001#32 else 0x00000000#32

/-- The signed comparison `<s` as a word (R13, R117, R131). -/
def lessSigned (a b : Word) : Word := boolWord (decide (sVal a < sVal b))

/-- The unsigned comparison `<u` as a word (R13, R118, R132). -/
def lessUnsigned (a b : Word) : Word := boolWord (decide (uVal a < uVal b))

end Sys2Proof.Machine
end

