-- ==== Sys2Proof/Config.lean ====
section
/-! DEFINITION. The parameters the spec fixes for this hardware (spec/00_scope.md R9).
`PROGRAM_LENGTH`, the one parameter the spec leaves OPEN, belongs to the program supplied and is the length of the
program array held in State. The spec leaves no value of any instruction open, so there is no free value here. -/

namespace Sys2Proof

/-- `R0_HARDWIRED` (R9, R21, decision D1): true for this hardware. The operations that read and write registers take
the flag as an argument in their general form, so that the other configuration is written down too. -/
def Config.r0Hardwired : Bool := true

/-- `EXTRA_RECOGNIZED_FUNCTS` (R9, R78, R108, decision D2): the empty set for this hardware. -/
def Config.extraRecognizedFuncts : List Code := []

/-- The index JAL links into: the only fixed register index (R20, R139). -/
def Config.linkRegister : RegIdx := 31#5

end Sys2Proof
end

