-- ==== Sys2Proof/Record.lean ====
section
/-! DEFINITION. The types between a raw word and an instruction: the three formats, the closed enumerations of opcodes
and functs, the decoded record and the decode failure (spec/30_encoding.md R58, R59, R72–R76, R82). -/

namespace Sys2Proof

/-- The three instruction layouts (R58). -/
inductive Format where
  | R | I | J
deriving DecidableEq, Repr

/-- The recognized opcodes, a closed enumeration (R76, R77). -/
inductive Opcode where
  | rType
  | j
  | jal
  | beq
  | bne
  | addi
  | addiu
  | slti
  | sltiu
  | andi
  | ori
  | lui
  | lw
  | lbu
  | lhu
  | sb
  | sh
  | sw
  | ll
  | sc
deriving DecidableEq, Repr

/-- The recognized functs (R76, R78): the 18 with semantics, and a member of `EXTRA_RECOGNIZED_FUNCTS` (R108), of
which this hardware has none. -/
inductive Funct where
  | sll
  | srl
  | jr
  | mfhi
  | mflo
  | mult
  | multu
  | div
  | divu
  | add
  | addu
  | sub
  | subu
  | and
  | or
  | nor
  | slt
  | sltu
  | extra (code : Code)
deriving DecidableEq, Repr

/-- A decoded instruction as the spec's decoder gives it: a tagged union of three variants, fields raw
(R58, R66). An R record stores no opcode; an I or J record carries its opcode as a member of the enumeration (R82). -/
inductive Record where
  | r (rs rt rd shamt : BitVec 5) (funct : Funct)
  | i (opcode : Opcode) (rs rt : BitVec 5) (immediate : BitVec 16)
  | j (opcode : Opcode) (address : BitVec 26)
deriving DecidableEq, Repr

/-- Why a word does not decode, with the code that was not recognized (R72, R74). -/
inductive DecodeFailure where
  | badOpcode (opcode : Code)
  | badFunct (funct : Code)
deriving DecidableEq, Repr

end Sys2Proof
end

