-- ==== Sys2Proof/Machine/Codes.lean ====
section
/-! DEFINITION. The code values of the opcode map and the funct map, and the lookup of a code in each closed enumeration
(spec/30_encoding.md R76–R78). The values are the spec's; the spec marks most of them as the MIPS architecture's,
UNVERIFIED by its source (notes/assumptions/8.md). -/

namespace Sys2Proof

/-- The 6-bit code of an opcode (R77). -/
def Opcode.code (o : Opcode) : Code :=
  match o with
  | .rType => 0x00#6
  | .j => 0x02#6
  | .jal => 0x03#6
  | .beq => 0x04#6
  | .bne => 0x05#6
  | .addi => 0x08#6
  | .addiu => 0x09#6
  | .slti => 0x0A#6
  | .sltiu => 0x0B#6
  | .andi => 0x0C#6
  | .ori => 0x0D#6
  | .lui => 0x0F#6
  | .lw => 0x23#6
  | .lbu => 0x24#6
  | .lhu => 0x25#6
  | .sb => 0x28#6
  | .sh => 0x29#6
  | .sw => 0x2B#6
  | .ll => 0x30#6
  | .sc => 0x38#6

/-- The opcode field alone selects the format (R58, R77). -/
def Opcode.format (o : Opcode) : Format :=
  match o with
  | .rType => .R
  | .j => .J
  | .jal => .J
  | .beq => .I
  | .bne => .I
  | .addi => .I
  | .addiu => .I
  | .slti => .I
  | .sltiu => .I
  | .andi => .I
  | .ori => .I
  | .lui => .I
  | .lw => .I
  | .lbu => .I
  | .lhu => .I
  | .sb => .I
  | .sh => .I
  | .sw => .I
  | .ll => .I
  | .sc => .I

/-- The 6-bit code of a funct (R78). -/
def Funct.code (f : Funct) : Code :=
  match f with
  | .sll => 0x00#6
  | .srl => 0x02#6
  | .jr => 0x08#6
  | .mfhi => 0x10#6
  | .mflo => 0x12#6
  | .mult => 0x18#6
  | .multu => 0x19#6
  | .div => 0x1A#6
  | .divu => 0x1B#6
  | .add => 0x20#6
  | .addu => 0x21#6
  | .sub => 0x22#6
  | .subu => 0x23#6
  | .and => 0x24#6
  | .or => 0x25#6
  | .nor => 0x27#6
  | .slt => 0x2A#6
  | .sltu => 0x2B#6
  | .extra c => c

/-- Every member of the opcode enumeration, in the order of R77. -/
def Opcode.members : List Opcode :=
  [.rType, .j, .jal, .beq, .bne, .addi, .addiu, .slti, .sltiu, .andi, .ori, .lui, .lw, .lbu, .lhu, .sb, .sh, .sw, .ll, .sc]

/-- The 18 functs with semantics, in the order of R78. -/
def Funct.members : List Funct :=
  [.sll, .srl, .jr, .mfhi, .mflo, .mult, .multu, .div, .divu, .add, .addu, .sub, .subu, .and, .or, .nor, .slt, .sltu]

/-- The opcode a code stands for, none where it is not in the enumeration: never the nearest member (R76). -/
def Opcode.ofCode (c : Code) : Option Opcode :=
  Opcode.members.find? (fun o => o.code == c)

/-- The funct a code stands for when `extra` is the set of extra recognized functs (R78, R108). -/
def Funct.ofCodeWith (extra : List Code) (c : Code) : Option Funct :=
  match Funct.members.find? (fun f => f.code == c) with
  | some f => some f
  | none => if c ∈ extra then some (.extra c) else none

/-- The format of a decoded record (R58). -/
def Record.format (d : Record) : Format :=
  match d with
  | .r _ _ _ _ _ => .R
  | .i _ _ _ _ => .I
  | .j _ _ => .J

/-- The code dispatch keys on: the funct of an R record, the opcode of an I or J record (R82, R99). -/
def Record.code (d : Record) : Code :=
  match d with
  | .r _ _ _ _ f => f.code
  | .i o _ _ _ => o.code
  | .j o _ => o.code

end Sys2Proof
end

