-- ==== Sys2Proof/Machine/Codec.lean ====
section
/-! DEFINITION. The codec of the spec: masks, field extraction with their range failures, and the field layouts (spec/30_encoding.md
R59, R62–R64, decision D18). The functions are pure and stand apart from the step: the core uses only the constant pairs of
R59, so that no range failure arises inside it (R65). -/

namespace Sys2Proof

/-- The failure of a codec function whose width or position is out of range (R62, R63). -/
inductive RangeError where
  | rangeError
deriving DecidableEq, Repr

/-- The field layout of a format, from the most significant field down: width and position (R59). -/
def Format.layout (f : Format) : List (Nat × Nat) :=
  match f with
  | .R => [(6, 26), (5, 21), (5, 16), (5, 11), (5, 6), (6, 0)]
  | .I => [(6, 26), (5, 21), (5, 16), (16, 0)]
  | .J => [(6, 26), (26, 0)]

namespace Codec

/-- `mask_for(width)`: the low `width` bits set, for `1 <= width <= 32` (R62). -/
def maskFor (width : Nat) : Except RangeError Word :=
  if 1 ≤ width ∧ width ≤ 32 then .ok (BitVec.ofNat 32 (2 ^ width - 1)) else .error .rangeError

/-- `field_mask(width, position)`: the mask moved up by `position`, taken in 32 bits (R63). -/
def fieldMask (width position : Nat) : Except RangeError Word :=
  if position ≤ 31 then
    match maskFor width with
    | .ok m => .ok (m <<< position)
    | .error e => .error e
  else .error .rangeError

/-- `extract(raw, mask, position)`: the masked bits moved down, unsigned, no bit lost (R64, C5). -/
def extract (raw mask : Word) (position : Nat) : Except RangeError Word :=
  if position ≤ 31 then .ok ((raw &&& mask) >>> position) else .error .rangeError

end Codec

end Sys2Proof
end

