-- ==== Sys2Proof/Syntax.lean ====
section
/-! DEFINITION. The instructions: one constructor per row of spec/opcode_table.json, in the table's order.
A constructor keeps every field of its format raw, the unused ones too, in the order of the word's bits
(spec/30_encoding.md R59, R66, R80): R-format `rs rt rd shamt`, I-format `rs rt imm`, J-format `address`. -/

namespace Sys2Proof

inductive Instr where
  | sll (rs rt rd shamt : BitVec 5)   -- R119
  | srl (rs rt rd shamt : BitVec 5)   -- R120
  | jr (rs rt rd shamt : BitVec 5)   -- R140
  | mfhi (rs rt rd shamt : BitVec 5)   -- R126
  | mflo (rs rt rd shamt : BitVec 5)   -- R127
  | mult (rs rt rd shamt : BitVec 5)   -- R121
  | multu (rs rt rd shamt : BitVec 5)   -- R122
  | div (rs rt rd shamt : BitVec 5)   -- R124
  | divu (rs rt rd shamt : BitVec 5)   -- R125
  | add (rs rt rd shamt : BitVec 5)   -- R110
  | addu (rs rt rd shamt : BitVec 5)   -- R111
  | sub (rs rt rd shamt : BitVec 5)   -- R112
  | subu (rs rt rd shamt : BitVec 5)   -- R113
  | and (rs rt rd shamt : BitVec 5)   -- R114
  | or (rs rt rd shamt : BitVec 5)   -- R115
  | nor (rs rt rd shamt : BitVec 5)   -- R116
  | slt (rs rt rd shamt : BitVec 5)   -- R117
  | sltu (rs rt rd shamt : BitVec 5)   -- R118
  | beq (rs rt : BitVec 5) (imm : BitVec 16)   -- R136
  | bne (rs rt : BitVec 5) (imm : BitVec 16)   -- R137
  | addi (rs rt : BitVec 5) (imm : BitVec 16)   -- R129
  | addiu (rs rt : BitVec 5) (imm : BitVec 16)   -- R130
  | slti (rs rt : BitVec 5) (imm : BitVec 16)   -- R131
  | sltiu (rs rt : BitVec 5) (imm : BitVec 16)   -- R132
  | andi (rs rt : BitVec 5) (imm : BitVec 16)   -- R133
  | ori (rs rt : BitVec 5) (imm : BitVec 16)   -- R134
  | lui (rs rt : BitVec 5) (imm : BitVec 16)   -- R144: no handler
  | lw (rs rt : BitVec 5) (imm : BitVec 16)   -- R145: no handler
  | lbu (rs rt : BitVec 5) (imm : BitVec 16)   -- R146: no handler
  | lhu (rs rt : BitVec 5) (imm : BitVec 16)   -- R147: no handler
  | sb (rs rt : BitVec 5) (imm : BitVec 16)   -- R148: no handler
  | sh (rs rt : BitVec 5) (imm : BitVec 16)   -- R149: no handler
  | sw (rs rt : BitVec 5) (imm : BitVec 16)   -- R150: no handler
  | ll (rs rt : BitVec 5) (imm : BitVec 16)   -- R151: no handler
  | sc (rs rt : BitVec 5) (imm : BitVec 16)   -- R152: no handler
  | j (address : BitVec 26)   -- R138
  | jal (address : BitVec 26)   -- R139
deriving DecidableEq, Repr

end Sys2Proof
end

