-- ==== Sys2Proof/WellFormed.lean ====
section
/-! DEFINITION. What makes a decoded record and an instruction well formed. An instruction's fields have exactly the
widths of the word's fields, so a field out of range cannot be written; what is checked is that a record's code is one
its format recognizes (spec/30_encoding.md R76, R82, R83). -/

namespace Sys2Proof

/-- A record with a recognized code of its own format (R83): an R record's extra funct is one of the configuration's
and none of the 18; an I record's opcode is I-format; a J record's opcode is J-format. -/
def Record.wf (d : Record) : Bool :=
  match d with
  | .r _ _ _ _ (.extra c) =>
      decide (c ∈ Config.extraRecognizedFuncts) && (Funct.members.all fun f => f.code != c)
  | .r _ _ _ _ _ => true
  | .i o _ _ _ => o.format == .I
  | .j o _ => o.format == .J

/-- The record of an instruction: its fields, and the code its constructor stands for. -/
def Instr.toRecord (n : Instr) : Record :=
  match n with
  | .sll rs rt rd shamt => .r rs rt rd shamt .sll
  | .srl rs rt rd shamt => .r rs rt rd shamt .srl
  | .jr rs rt rd shamt => .r rs rt rd shamt .jr
  | .mfhi rs rt rd shamt => .r rs rt rd shamt .mfhi
  | .mflo rs rt rd shamt => .r rs rt rd shamt .mflo
  | .mult rs rt rd shamt => .r rs rt rd shamt .mult
  | .multu rs rt rd shamt => .r rs rt rd shamt .multu
  | .div rs rt rd shamt => .r rs rt rd shamt .div
  | .divu rs rt rd shamt => .r rs rt rd shamt .divu
  | .add rs rt rd shamt => .r rs rt rd shamt .add
  | .addu rs rt rd shamt => .r rs rt rd shamt .addu
  | .sub rs rt rd shamt => .r rs rt rd shamt .sub
  | .subu rs rt rd shamt => .r rs rt rd shamt .subu
  | .and rs rt rd shamt => .r rs rt rd shamt .and
  | .or rs rt rd shamt => .r rs rt rd shamt .or
  | .nor rs rt rd shamt => .r rs rt rd shamt .nor
  | .slt rs rt rd shamt => .r rs rt rd shamt .slt
  | .sltu rs rt rd shamt => .r rs rt rd shamt .sltu
  | .beq rs rt imm => .i .beq rs rt imm
  | .bne rs rt imm => .i .bne rs rt imm
  | .addi rs rt imm => .i .addi rs rt imm
  | .addiu rs rt imm => .i .addiu rs rt imm
  | .slti rs rt imm => .i .slti rs rt imm
  | .sltiu rs rt imm => .i .sltiu rs rt imm
  | .andi rs rt imm => .i .andi rs rt imm
  | .ori rs rt imm => .i .ori rs rt imm
  | .lui rs rt imm => .i .lui rs rt imm
  | .lw rs rt imm => .i .lw rs rt imm
  | .lbu rs rt imm => .i .lbu rs rt imm
  | .lhu rs rt imm => .i .lhu rs rt imm
  | .sb rs rt imm => .i .sb rs rt imm
  | .sh rs rt imm => .i .sh rs rt imm
  | .sw rs rt imm => .i .sw rs rt imm
  | .ll rs rt imm => .i .ll rs rt imm
  | .sc rs rt imm => .i .sc rs rt imm
  | .j address => .j .j address
  | .jal address => .j .jal address

/-- An instruction is well formed when its record is (R83). -/
abbrev Instr.WellFormed (n : Instr) : Prop := n.toRecord.wf = true

end Sys2Proof
end

