-- ==== Sys2Proof/Decode.lean ====
section
/-! DEFINITION. The decoder and, after it, the encoder (spec/30_encoding.md R59, R65, R71–R75, R80, R83; the dispatch
tables' lookup, spec/40_dispatch.md R99–R102). -/

namespace Sys2Proof

/-- `opcode(w) = w[31:26]` (R65). -/
def opcodeField (w : Word) : Code := w.extractLsb' 26 6
/-- `rs(w) = w[25:21]` (R65). -/
def rsField (w : Word) : BitVec 5 := w.extractLsb' 21 5
/-- `rt(w) = w[20:16]` (R65). -/
def rtField (w : Word) : BitVec 5 := w.extractLsb' 16 5
/-- `rd(w) = w[15:11]` (R65). -/
def rdField (w : Word) : BitVec 5 := w.extractLsb' 11 5
/-- `shamt(w) = w[10:6]` (R65). -/
def shamtField (w : Word) : BitVec 5 := w.extractLsb' 6 5
/-- `funct(w) = w[5:0]` (R65). -/
def functField (w : Word) : Code := w.extractLsb' 0 6
/-- `immediate(w) = w[15:0]` (R65). -/
def immediateField (w : Word) : BitVec 16 := w.extractLsb' 0 16
/-- `address(w) = w[25:0]`, all 26 bits (R65, C5). -/
def addressField (w : Word) : BitVec 26 := w.extractLsb' 0 26

/-- The decoder as one function, for a given set of extra functs (R72–R75, R108). It reads nothing but the word, and no
field but the opcode and, in R-format, the funct decides (R80). -/
def decodeWith (extra : List Code) (w : Word) : Except DecodeFailure Record :=
  match Opcode.ofCode (opcodeField w) with
  | none => .error (.badOpcode (opcodeField w))
  | some o =>
    match o.format with
    | .R =>
      match Funct.ofCodeWith extra (functField w) with
      | some f => .ok (.r (rsField w) (rtField w) (rdField w) (shamtField w) f)
      | none => .error (.badFunct (functField w))
    | .J => .ok (.j o (addressField w))
    | .I => .ok (.i o (rsField w) (rtField w) (immediateField w))

/-- The decoder of this hardware (R71, R75). -/
def decode (w : Word) : Except DecodeFailure Record :=
  decodeWith Config.extraRecognizedFuncts w

/-- The dispatch tables' lookup (R99, R100): the instruction a record's format and code select. An entry that stands for
no row of the opcode table (an extra funct; a code of another format) selects none: the format's default handler
(R101, R102, R108). -/
def Record.toInstr (d : Record) : Option Instr :=
  match d with
  | .r rs rt rd shamt f =>
    match f with
    | .sll => some (.sll rs rt rd shamt)
    | .srl => some (.srl rs rt rd shamt)
    | .jr => some (.jr rs rt rd shamt)
    | .mfhi => some (.mfhi rs rt rd shamt)
    | .mflo => some (.mflo rs rt rd shamt)
    | .mult => some (.mult rs rt rd shamt)
    | .multu => some (.multu rs rt rd shamt)
    | .div => some (.div rs rt rd shamt)
    | .divu => some (.divu rs rt rd shamt)
    | .add => some (.add rs rt rd shamt)
    | .addu => some (.addu rs rt rd shamt)
    | .sub => some (.sub rs rt rd shamt)
    | .subu => some (.subu rs rt rd shamt)
    | .and => some (.and rs rt rd shamt)
    | .or => some (.or rs rt rd shamt)
    | .nor => some (.nor rs rt rd shamt)
    | .slt => some (.slt rs rt rd shamt)
    | .sltu => some (.sltu rs rt rd shamt)
    | .extra _ => none
  | .i o rs rt imm =>
    match o with
    | .beq => some (.beq rs rt imm)
    | .bne => some (.bne rs rt imm)
    | .addi => some (.addi rs rt imm)
    | .addiu => some (.addiu rs rt imm)
    | .slti => some (.slti rs rt imm)
    | .sltiu => some (.sltiu rs rt imm)
    | .andi => some (.andi rs rt imm)
    | .ori => some (.ori rs rt imm)
    | .lui => some (.lui rs rt imm)
    | .lw => some (.lw rs rt imm)
    | .lbu => some (.lbu rs rt imm)
    | .lhu => some (.lhu rs rt imm)
    | .sb => some (.sb rs rt imm)
    | .sh => some (.sh rs rt imm)
    | .sw => some (.sw rs rt imm)
    | .ll => some (.ll rs rt imm)
    | .sc => some (.sc rs rt imm)
    | .rType => none
    | .j => none
    | .jal => none
  | .j o address =>
    match o with
    | .j => some (.j address)
    | .jal => some (.jal address)
    | .rType => none
    | .beq => none
    | .bne => none
    | .addi => none
    | .addiu => none
    | .slti => none
    | .sltiu => none
    | .andi => none
    | .ori => none
    | .lui => none
    | .lw => none
    | .lbu => none
    | .lhu => none
    | .sb => none
    | .sh => none
    | .sw => none
    | .ll => none
    | .sc => none

/-- The instruction a word decodes to, none where the decoder rejects it. -/
def decodeInstr (w : Word) : Option Instr :=
  match decode w with
  | .ok d => d.toInstr
  | .error _ => none

/-- The word of an instruction numbered as spec/opcode_table.json numbers it: the low `nbits` bits of `w`, the bits above
them zero. Every row has 32 bits (R57). -/
def tableWord (nbits w : Nat) : Word := BitVec.ofNat 32 (w % 2 ^ nbits)

/-- The decoder on a word given in the opcode table's numbering. -/
def decodeTableWord (nbits w : Nat) : Option Instr := decodeInstr (tableWord nbits w)

/-- `encR` (R83). -/
def encR (rs rt rd shamt : BitVec 5) (funct : Code) : Word :=
  (0#32 <<< 26) ||| (rs.setWidth 32 <<< 21) ||| (rt.setWidth 32 <<< 16) ||| (rd.setWidth 32 <<< 11)
    ||| (shamt.setWidth 32 <<< 6) ||| funct.setWidth 32
/-- `encI` (R83). -/
def encI (op : Code) (rs rt : BitVec 5) (imm : BitVec 16) : Word :=
  (op.setWidth 32 <<< 26) ||| (rs.setWidth 32 <<< 21) ||| (rt.setWidth 32 <<< 16) ||| imm.setWidth 32
/-- `encJ` (R83). -/
def encJ (op : Code) (address : BitVec 26) : Word :=
  (op.setWidth 32 <<< 26) ||| address.setWidth 32

/-- The word of a record (R83). -/
def encodeRecord (d : Record) : Word :=
  match d with
  | .r rs rt rd shamt f => encR rs rt rd shamt f.code
  | .i o rs rt imm => encI o.code rs rt imm
  | .j o address => encJ o.code address

/-- The word of an instruction (R83). -/
def encode (n : Instr) : Word := encodeRecord n.toRecord

end Sys2Proof
end

