-- ==== Sys2Proof/Machine/State.lean ====
section
/-! DEFINITION. The machine's state as plain data, the reasons a step can stop, and the state after reset
(spec/10_state.md R20–R37, spec/20_memory.md R40, R45, spec/60_exceptions.md R154, R170, spec/70_reset_and_hazards.md R171). -/

namespace Sys2Proof.Machine

/-- The report of a step (R31, R154). -/
inductive Report where
  /-- Every handled instruction without a fault. -/
  | ok
  /-- The decoder rejected the word: the code it did not recognize. -/
  | decodeFailure (f : DecodeFailure)
  /-- A default handler ran: the format and the code dispatch keyed on. -/
  | unhandledInstruction (format : Format) (code : Code)
  /-- DIV or DIVU with a zero divisor. -/
  | divideByZero
deriving DecidableEq, Repr

/-- The program array (R40): word `k` is the element at index `k`, and PROGRAM_LENGTH is its length. A list of words, not
of bytes: the core has no byte order and no byte access (R45). DESIGN CHOICE, notes/assumptions/1.md. -/
abbrev Memory := List Word

/-- The form of a program array: at most 2^30 words, so that every element has a 30-bit index (R44, decision D20).
Equal arrays are equal lists, so there is no second way to write one. DEDUCED, notes/assumptions/7.md. -/
def Memory.wf (m : Memory) : Bool := decide (m.length ≤ 2 ^ 30)

/-- The state. `x`, `hi`, `lo` and `pc` are the whole architectural state (R37). `program` is the run's program array,
a parameter of the run (R37, R40), and `history` the event history of reports, newest first (R170): neither is
architectural state, and a step finds them here because the host's interface has no other place for them
(DESIGN CHOICE, notes/assumptions/1.md and notes/assumptions/3.md). -/
structure State where
  /-- The general registers (R20). -/
  x : Vector Word 32
  /-- The accumulator `hi` (R25). -/
  hi : Word
  /-- The accumulator `lo` (R25). -/
  lo : Word
  /-- The program counter, a byte address (R27). -/
  pc : Word
  /-- The program array (R40). -/
  program : Memory
  /-- The reports of the steps so far, newest first (R31, R170). -/
  history : List Report
deriving DecidableEq, Repr

/-- Why a step stops the machine. -/
inductive Fault where
  /-- Raised by `step` when `pc[31:2] >= PROGRAM_LENGTH`: the run is over and the state final (R176), and the core has no
  meaning for a fetch there (R41). Safe: the model goes no further than the spec does. DEDUCED, notes/assumptions/2.md. -/
  | fetchOutsideProgram
deriving DecidableEq, Repr

/-- Why a step has no meaning. -/
inductive Refusal where
  /-- Raised by an arm of `exec` for an instruction without a meaning yet; no arm does. Safe: nothing is claimed of it. -/
  | notModelled (mnemonic : String)
deriving DecidableEq, Repr

/-- The state right after reset: every register zero, no report yet, so that the report output is OK (R171). The spec
gives the program array no reset value, since the host supplies it; here it is empty (DESIGN CHOICE,
notes/assumptions/5.md). -/
def State.reset : State where
  x := Vector.replicate 32 0#32
  hi := 0#32
  lo := 0#32
  pc := 0#32
  program := []
  history := []

end Sys2Proof.Machine
end

