-- ==== Sys2Proof/Machine/Ops.lean ====
section
/-! DEFINITION. The named operations over registers, accumulators, pc, program array and reports. Every instruction's
meaning is one of the results at the end of this file, applied to values computed from the state before any write
(spec/00_scope.md R14–R16; spec/10_state.md R20–R28). The core has no exception entry and no return (R159, R163, R164):
raising a report is all that happens in their place, and `raise` is the one operation for it. -/

namespace Sys2Proof.Machine

/-- What one step, or one instruction, answers. -/
abbrev Result := Host.Outcome State Fault Refusal

/-! ### General registers -/

/-- A register read; with `hardwired`, register 0 reads zero (R20, R21). -/
def readRegWith (hardwired : Bool) (s : State) (r : RegIdx) : Word :=
  if hardwired && r == 0#5 then 0#32 else s.x[r.toNat]'(r.isLt)

/-- A register write; with `hardwired`, a write of register 0 is discarded (R20, R21). -/
def writeRegWith (hardwired : Bool) (s : State) (r : RegIdx) (v : Word) : State :=
  if hardwired && r == 0#5 then s else { s with x := s.x.set r.toNat v r.isLt }

/-- `x[r]` on this hardware (R14, R21). -/
def readReg (s : State) (r : RegIdx) : Word := readRegWith Config.r0Hardwired s r

/-- `x[r] <- v` on this hardware (R14, R21). -/
def writeReg (s : State) (r : RegIdx) (v : Word) : State := writeRegWith Config.r0Hardwired s r v

/-! ### Accumulators, program counter, program array -/

/-- `hi <- h` and `lo <- l`: the instructions that write an accumulator write both (R25). -/
def setHiLo (s : State) (h l : Word) : State := { s with hi := h, lo := l }

/-- `pc <- target`, a 32-bit pattern, so every sum wraps modulo 2^32 (R28); no alignment check (R38). -/
def setPc (s : State) (target : Word) : State := { s with pc := target }

/-- The advance every step makes first: `pc <- pc + 4` (R97). -/
def advancePc (s : State) : State := setPc s (s.pc + 4#32)

/-- The fetch index `pc[31:2]` (R42). -/
def fetchIndex (s : State) : BitVec 30 := s.pc.extractLsb' 2 30

/-- `PROGRAM_LENGTH` (R9, R40). -/
def programLength (s : State) : Nat := s.program.length

/-- `Fetch(k)`: the word at index `k`, none where the array has no such index (R41). -/
def fetchWord (s : State) (k : Nat) : Option Word := s.program[k]?

/-- The program array with the word `w` at index `k`. An array too short is made longer, the words between being zero
(DESIGN CHOICE, notes/assumptions/5.md). It is the host's supply of a program before a run, no move of the machine
(R40, R53). -/
def Memory.place (m : Memory) (k : Nat) (w : Word) : Memory :=
  if k < m.length then m.set k w else m ++ List.replicate (k - m.length) 0#32 ++ [w]

/-- The state with the word `w` where the next step fetches. -/
def placeAtPc (s : State) (w : Word) : State :=
  { s with program := Memory.place s.program (fetchIndex s).toNat w }

/-- The host's supply of a whole program (R40, R178). -/
def withProgram (s : State) (p : Memory) : State := { s with program := p }

/-- The `reset` event: every register zero and a new run begun, the program array untouched (R171, R173).
That the event history starts empty is a DESIGN CHOICE, notes/assumptions/6.md. -/
def applyReset (s : State) : State := withProgram State.reset s.program

/-! ### Reports -/

/-- `raise` of R15: the current step's report is `r`; it changes nothing else (R31, R160). -/
def raise (s : State) (r : Report) : State := { s with history := r :: s.history }

/-- The `report` output: the report of the last step, OK after reset (R33, R171). -/
def report (s : State) : Report := s.history.headD .ok

/-- The numeric code of a report kind (R154). -/
def Report.code (r : Report) : Nat :=
  match r with
  | .ok => 0
  | .decodeFailure (.badOpcode _) => 1
  | .decodeFailure (.badFunct _) => 2
  | .unhandledInstruction _ _ => 3
  | .divideByZero => 4

/-! ### The results an instruction can have -/

/-- A report and nothing else (R98, R101, R158). -/
def reportOnly (s : State) (r : Report) : Result := .next (raise s r)

/-- A general register written, report OK. -/
def regResult (s : State) (r : RegIdx) (v : Word) : Result := .next (raise (writeReg s r v) .ok)

/-- Both accumulators written, report OK. -/
def hiLoResult (s : State) (h l : Word) : Result := .next (raise (setHiLo s h l) .ok)

/-- The program counter written, report OK. -/
def jumpResult (s : State) (target : Word) : Result := .next (raise (setPc s target) .ok)

/-- The program counter and the link register written, report OK (R139). -/
def linkResult (s : State) (target link : Word) : Result :=
  .next (raise (writeReg (setPc s target) Config.linkRegister link) .ok)

/-- The default handler of a format: a report and nothing else (R101, R143, R157). -/
def defaultHandler (s : State) (f : Format) (c : Code) : Result := reportOnly s (.unhandledInstruction f c)

end Sys2Proof.Machine
end

