-- ==== Sys2Proof/Machine/Operands.lean ====
section
/-! DEFINITION. The operand forms of the handlers (spec/30_encoding.md R67–R70). A handler runs with `pc` already
advanced, so `s.pc` is the source's `pc_after_fetch` (R97). -/

namespace Sys2Proof.Machine

/-- The operand of ADDI, ADDIU, SLTI and SLTIU (R67). -/
def immSigned (imm : BitVec 16) : Word := sext32 imm

/-- The operand of ANDI and ORI (R67). -/
def immUnsigned (imm : BitVec 16) : Word := zext32 imm

/-- The branch offset: the sign-extended immediate times 4 (R68). -/
def branchOffset (imm : BitVec 16) : Word := sext32 imm <<< 2

/-- The target of a taken branch: the address after the branch plus the offset (R68, R136, C1). -/
def branchTarget (s : State) (imm : BitVec 16) : Word := s.pc + branchOffset imm

/-- The pseudo-direct jump target: the region of the address after the jump, and the address field times 4 (R69). -/
def jumpTarget (s : State) (address : BitVec 26) : Word :=
  (s.pc &&& 0xF0000000#32) ||| (address.setWidth 32 <<< 2)

/-- The return address JAL stores: the address after the jump plus 4, so `P + 8` (R139). -/
def linkAddress (s : State) : Word := s.pc + 4#32

/-- A left shift by a 5-bit amount (R13, R70). -/
def shiftLeft (v : Word) (shamt : BitVec 5) : Word := v <<< shamt.toNat

/-- A logical right shift by a 5-bit amount (R13, R70, C3). -/
def shiftRight (v : Word) (shamt : BitVec 5) : Word := v >>> shamt.toNat

end Sys2Proof.Machine
end

