-- ==== Sys2Proof/Machine/Alu.lean ====
section
/-! DEFINITION. The register-register ALU operations (spec/41_alu_register.md). Each meaning takes every field of the
format, the fields it ignores with an underscore (spec/30_encoding.md R80). -/

namespace Sys2Proof.Machine

/-- ADD: the signed sum, wrapped; no trap (R110). -/
def execAdd (rs rt rd _shamt : BitVec 5) (s : State) : Result :=
  regResult s rd (bits32 (sVal (readReg s rs) + sVal (readReg s rt)))

/-- ADDU (R111). -/
def execAddu (rs rt rd _shamt : BitVec 5) (s : State) : Result :=
  regResult s rd (readReg s rs + readReg s rt)

/-- SUB: the signed difference, wrapped; no trap (R112). -/
def execSub (rs rt rd _shamt : BitVec 5) (s : State) : Result :=
  regResult s rd (bits32 (sVal (readReg s rs) - sVal (readReg s rt)))

/-- SUBU (R113). -/
def execSubu (rs rt rd _shamt : BitVec 5) (s : State) : Result :=
  regResult s rd (readReg s rs - readReg s rt)

/-- AND (R114). -/
def execAnd (rs rt rd _shamt : BitVec 5) (s : State) : Result :=
  regResult s rd (readReg s rs &&& readReg s rt)

/-- OR (R115). -/
def execOr (rs rt rd _shamt : BitVec 5) (s : State) : Result :=
  regResult s rd (readReg s rs ||| readReg s rt)

/-- NOR (R116). -/
def execNor (rs rt rd _shamt : BitVec 5) (s : State) : Result :=
  regResult s rd (~~~(readReg s rs ||| readReg s rt))

/-- SLT (R117). -/
def execSlt (rs rt rd _shamt : BitVec 5) (s : State) : Result :=
  regResult s rd (lessSigned (readReg s rs) (readReg s rt))

/-- SLTU (R118). -/
def execSltu (rs rt rd _shamt : BitVec 5) (s : State) : Result :=
  regResult s rd (lessUnsigned (readReg s rs) (readReg s rt))

/-- SLL (R119). -/
def execSll (_rs rt rd shamt : BitVec 5) (s : State) : Result :=
  regResult s rd (shiftLeft (readReg s rt) shamt)

/-- SRL, a logical right shift (R120, C3). -/
def execSrl (_rs rt rd shamt : BitVec 5) (s : State) : Result :=
  regResult s rd (shiftRight (readReg s rt) shamt)

end Sys2Proof.Machine
end

