-- ==== Sys2Proof/Machine/Control.lean ====
section
/-! DEFINITION. Branches and jumps, without a delay slot (spec/44_control.md; spec/70_reset_and_hazards.md R181). -/

namespace Sys2Proof.Machine

/-- A branch: the target where the condition holds, else the address after the branch, which `pc` already holds (R136). -/
def branchResult (s : State) (taken : Bool) (imm : BitVec 16) : Result :=
  if taken then jumpResult s (branchTarget s imm) else reportOnly s .ok

/-- BEQ (R136). -/
def execBeq (rs rt : BitVec 5) (imm : BitVec 16) (s : State) : Result :=
  branchResult s (readReg s rs == readReg s rt) imm

/-- BNE (R137). -/
def execBne (rs rt : BitVec 5) (imm : BitVec 16) (s : State) : Result :=
  branchResult s (readReg s rs != readReg s rt) imm

/-- J (R138). -/
def execJ (address : BitVec 26) (s : State) : Result := jumpResult s (jumpTarget s address)

/-- JAL: links `P + 8` into register 31 (R139). -/
def execJal (address : BitVec 26) (s : State) : Result := linkResult s (jumpTarget s address) (linkAddress s)

/-- JR: the target as it is, no alignment check (R140). -/
def execJr (rs _rt _rd _shamt : BitVec 5) (s : State) : Result := jumpResult s (readReg s rs)

end Sys2Proof.Machine
end

