-- ==== Sys2Proof/Machine/Immediate.lean ====
section
/-! DEFINITION. The immediate operations (spec/43_immediate.md). The destination is `rt` (decision D4). -/

namespace Sys2Proof.Machine

/-- ADDI: the signed sum, wrapped; no trap (R129). -/
def execAddi (rs rt : BitVec 5) (imm : BitVec 16) (s : State) : Result :=
  regResult s rt (bits32 (sVal (readReg s rs) + sVal (immSigned imm)))

/-- ADDIU: the immediate is sign-extended (R130). -/
def execAddiu (rs rt : BitVec 5) (imm : BitVec 16) (s : State) : Result :=
  regResult s rt (readReg s rs + immSigned imm)

/-- SLTI (R131). -/
def execSlti (rs rt : BitVec 5) (imm : BitVec 16) (s : State) : Result :=
  regResult s rt (lessSigned (readReg s rs) (immSigned imm))

/-- SLTIU: the immediate is sign-extended, the comparison unsigned (R132). -/
def execSltiu (rs rt : BitVec 5) (imm : BitVec 16) (s : State) : Result :=
  regResult s rt (lessUnsigned (readReg s rs) (immSigned imm))

/-- ANDI: the immediate is zero-extended (R133). -/
def execAndi (rs rt : BitVec 5) (imm : BitVec 16) (s : State) : Result :=
  regResult s rt (readReg s rs &&& immUnsigned imm)

/-- ORI: the immediate is zero-extended (R134). -/
def execOri (rs rt : BitVec 5) (imm : BitVec 16) (s : State) : Result :=
  regResult s rt (readReg s rs ||| immUnsigned imm)

end Sys2Proof.Machine
end

