-- ==== Sys2Proof/Machine/MulDiv.lean ====
section
/-! DEFINITION. Multiply, divide and the accumulator moves (spec/42_muldiv_move.md). -/

namespace Sys2Proof.Machine

/-- The 64-bit product split into `hi` (bits 63:32) and `lo` (bits 31:0) (R121, R122, C4). -/
def productResult (s : State) (p : Int) : Result := hiLoResult s (highHalf (bits64 p)) (lowHalf (bits64 p))

/-- Signed division of patterns as the pair (`hi`, `lo`): no pair for a zero divisor; the one quotient that does not fit
given in full; otherwise remainder and quotient of the division rounded toward zero (R123, R124, decisions D5–D7). -/
def divSigned (a b : Word) : Option (Word × Word) :=
  if sVal b = 0 then none
  else if sVal a = -2 ^ 31 ∧ sVal b = -1 then some (0x00000000#32, 0x80000000#32)
  else some (bits32 (truncRem (sVal a) (sVal b)), bits32 (truncDiv (sVal a) (sVal b)))

/-- Unsigned division of patterns as the pair (`hi`, `lo`): no pair for a zero divisor (R123, R125, decision D5). -/
def divUnsigned (a b : Word) : Option (Word × Word) :=
  if uVal b = 0 then none
  else some (bits32 (truncRem (uVal a) (uVal b)), bits32 (truncDiv (uVal a) (uVal b)))

/-- The result of a division: a zero divisor is reported and writes nothing (R26, R124, R125). -/
def divisionResult (s : State) (o : Option (Word × Word)) : Result :=
  match o with
  | none => reportOnly s .divideByZero
  | some (h, l) => hiLoResult s h l

/-- MULT (R121). -/
def execMult (rs rt _rd _shamt : BitVec 5) (s : State) : Result :=
  productResult s (sVal (readReg s rs) * sVal (readReg s rt))

/-- MULTU (R122). -/
def execMultu (rs rt _rd _shamt : BitVec 5) (s : State) : Result :=
  productResult s (uVal (readReg s rs) * uVal (readReg s rt))

/-- DIV (R124). -/
def execDiv (rs rt _rd _shamt : BitVec 5) (s : State) : Result :=
  divisionResult s (divSigned (readReg s rs) (readReg s rt))

/-- DIVU (R125). -/
def execDivu (rs rt _rd _shamt : BitVec 5) (s : State) : Result :=
  divisionResult s (divUnsigned (readReg s rs) (readReg s rt))

/-- MFHI (R126). -/
def execMfhi (_rs _rt rd _shamt : BitVec 5) (s : State) : Result := regResult s rd s.hi

/-- MFLO (R127). -/
def execMflo (_rs _rt rd _shamt : BitVec 5) (s : State) : Result := regResult s rd s.lo

end Sys2Proof.Machine
end

