-- ==== Sys2Proof/Machine/Unhandled.lean ====
section
/-! DEFINITION. The recognized opcodes without a handler (spec/45_unhandled.md): each runs the I-format default handler,
whose whole effect is the report `UnhandledInstruction(I, opcode)` (R143). The report depends on the opcode alone, for
every value of the fields. -/

namespace Sys2Proof.Machine

/-- LUI: no register is written, whatever published MIPS does (R144). -/
def execLui (_rs _rt : BitVec 5) (_imm : BitVec 16) (s : State) : Result := defaultHandler s .I (Opcode.code .lui)

/-- LW: no memory is read (R145). -/
def execLw (_rs _rt : BitVec 5) (_imm : BitVec 16) (s : State) : Result := defaultHandler s .I (Opcode.code .lw)

/-- LBU: no memory is read (R146). -/
def execLbu (_rs _rt : BitVec 5) (_imm : BitVec 16) (s : State) : Result := defaultHandler s .I (Opcode.code .lbu)

/-- LHU: no memory is read (R147). -/
def execLhu (_rs _rt : BitVec 5) (_imm : BitVec 16) (s : State) : Result := defaultHandler s .I (Opcode.code .lhu)

/-- SB: no memory is written (R148). -/
def execSb (_rs _rt : BitVec 5) (_imm : BitVec 16) (s : State) : Result := defaultHandler s .I (Opcode.code .sb)

/-- SH: no memory is written (R149). -/
def execSh (_rs _rt : BitVec 5) (_imm : BitVec 16) (s : State) : Result := defaultHandler s .I (Opcode.code .sh)

/-- SW: no memory is written, the program array included (R150). -/
def execSw (_rs _rt : BitVec 5) (_imm : BitVec 16) (s : State) : Result := defaultHandler s .I (Opcode.code .sw)

/-- LL: no reservation is set (R151). -/
def execLl (_rs _rt : BitVec 5) (_imm : BitVec 16) (s : State) : Result := defaultHandler s .I (Opcode.code .ll)

/-- SC: no success or failure flag is stored (R152). -/
def execSc (_rs _rt : BitVec 5) (_imm : BitVec 16) (s : State) : Result := defaultHandler s .I (Opcode.code .sc)

end Sys2Proof.Machine
end

