-- ==== Sys2Proof/Machine/Cycle.lean ====
section
/-! DEFINITION. The step cycle: advance, decode, dispatch (spec/40_dispatch.md R95–R104), and one turn of the host's loop
around it: bounds check and fetch (spec/70_reset_and_hazards.md R175, R176). -/

namespace Sys2Proof.Machine

/-- The handler a decoded record selects: its instruction's, or the default handler of its format where the table has no
wired entry for the code (R99–R102, R108). -/
def dispatch (d : Record) (s : State) : Result :=
  match d.toInstr with
  | some i => exec i s
  | none => defaultHandler s d.format d.code

/-- The core's step on the word `w` for a given set of extra functs: `pc` advances whatever follows (R97); a word that
does not decode raises its report and runs no handler (R98). -/
def coreStepWith (extra : List Code) (w : Word) (s : State) : Result :=
  match decodeWith extra w with
  | .error f => reportOnly (advancePc s) (.decodeFailure f)
  | .ok d => dispatch d (advancePc s)

/-- The core's step on this hardware: `step(S, w)` of R95. -/
def coreStep (w : Word) (s : State) : Result := coreStepWith Config.extraRecognizedFuncts w s

/-- The word the host presents for the next step, none where its bounds check ends the run (R41, R42, R175). -/
def fetch (s : State) : Option Word := fetchWord s (fetchIndex s).toNat

/-- One turn of the host's loop: the bounds check, then the core's step on the fetched word (R175, R176). -/
def cycle (s : State) : Result :=
  match fetch s with
  | none => .fault .fetchOutsideProgram
  | some w => coreStep w s

end Sys2Proof.Machine
end

