-- ==== Sys2Proof/Machine/Step.lean ====
section
/-! DEFINITION. The step the host calls, and the placing of an instruction where the next step fetches. -/

namespace Sys2Proof.Machine

/-- One step of the machine with its program: three outcomes, of which a refusal never occurs (R170, R175). -/
def step (s : State) : Host.Outcome State Fault Refusal := Sys2Proof.Machine.cycle s

/-- `s` with the word `w`, in the opcode table's numbering, where `step` fetches its next instruction. It stands for the
host's supply of a program (notes/assumptions/5.md). -/
def State.withFetchWord (s : State) (nbits w : Nat) : State := placeAtPc s (tableWord nbits w)

end Sys2Proof.Machine
end

