-- ==== Sys2Proof/Machine/Assembly.lean ====
section
/-! DEFINITION. Names and text: the conventional register names, the operand order of the assembler text and the
pseudo-instructions (spec/10_state.md R22; spec/30_encoding.md R84, R85; decisions D21, D22). No rule of the hardware
depends on them, and no definition of the machine uses this file. How a number is printed (immediates signed where the
handler sign-extends them, else unsigned; a jump's label within the region of the address after it) is a DESIGN CHOICE,
notes/assumptions/9.md. -/

namespace Sys2Proof

/-- The register names of R22, in order of the index. -/
def regNames : List String :=
  ["$zero", "$at", "$v0", "$v1", "$a0", "$a1", "$a2", "$a3", "$t0", "$t1", "$t2", "$t3", "$t4", "$t5", "$t6", "$t7",
   "$s0", "$s1", "$s2", "$s3", "$s4", "$s5", "$s6", "$s7", "$t8", "$t9", "$k0", "$k1", "$gp", "$sp", "$fp", "$ra"]

/-- The name of a register (R22). -/
def regName (r : RegIdx) : String := regNames[r.toNat]?.getD ""

/-- An operand of the assembler text (R84). -/
inductive AsmOperand where
  | reg (r : RegIdx)
  | num (n : Int)
  | label (address : Word)
  | mem (offset : Int) (base : RegIdx)
deriving DecidableEq, Repr

/-- The operands of an instruction at address `p`, in the order of R84. -/
def Instr.asmOperands (p : Word) (n : Instr) : List AsmOperand :=
  let alu (rs rt rd : RegIdx) : List AsmOperand := [.reg rd, .reg rs, .reg rt]
  let signed (imm : BitVec 16) : AsmOperand := .num (sVal (sext32 imm))
  let unsigned (imm : BitVec 16) : AsmOperand := .num (uVal (zext32 imm))
  let branch (imm : BitVec 16) : AsmOperand := .label (p + 4#32 + (sext32 imm <<< 2))
  let memory (rs rt : RegIdx) (imm : BitVec 16) : List AsmOperand := [.reg rt, .mem (sVal (sext32 imm)) rs]
  let jump (address : BitVec 26) : AsmOperand :=
    .label (((p + 4#32) &&& 0xF0000000#32) ||| (address.setWidth 32 <<< 2))
  match n with
  | .sll _ rt rd shamt => [.reg rd, .reg rt, .num (shamt.toNat : Int)]
  | .srl _ rt rd shamt => [.reg rd, .reg rt, .num (shamt.toNat : Int)]
  | .jr rs _ _ _ => [.reg rs]
  | .mfhi _ _ rd _ => [.reg rd]
  | .mflo _ _ rd _ => [.reg rd]
  | .mult rs rt _ _ => [.reg rs, .reg rt]
  | .multu rs rt _ _ => [.reg rs, .reg rt]
  | .div rs rt _ _ => [.reg rs, .reg rt]
  | .divu rs rt _ _ => [.reg rs, .reg rt]
  | .add rs rt rd _ => alu rs rt rd
  | .addu rs rt rd _ => alu rs rt rd
  | .sub rs rt rd _ => alu rs rt rd
  | .subu rs rt rd _ => alu rs rt rd
  | .and rs rt rd _ => alu rs rt rd
  | .or rs rt rd _ => alu rs rt rd
  | .nor rs rt rd _ => alu rs rt rd
  | .slt rs rt rd _ => alu rs rt rd
  | .sltu rs rt rd _ => alu rs rt rd
  | .beq rs rt imm => [.reg rs, .reg rt, branch imm]
  | .bne rs rt imm => [.reg rs, .reg rt, branch imm]
  | .addi rs rt imm => [.reg rt, .reg rs, signed imm]
  | .addiu rs rt imm => [.reg rt, .reg rs, signed imm]
  | .slti rs rt imm => [.reg rt, .reg rs, signed imm]
  | .sltiu rs rt imm => [.reg rt, .reg rs, signed imm]
  | .andi rs rt imm => [.reg rt, .reg rs, unsigned imm]
  | .ori rs rt imm => [.reg rt, .reg rs, unsigned imm]
  | .lui _ rt imm => [.reg rt, unsigned imm]
  | .lw rs rt imm => memory rs rt imm
  | .lbu rs rt imm => memory rs rt imm
  | .lhu rs rt imm => memory rs rt imm
  | .sb rs rt imm => memory rs rt imm
  | .sh rs rt imm => memory rs rt imm
  | .sw rs rt imm => memory rs rt imm
  | .ll rs rt imm => memory rs rt imm
  | .sc rs rt imm => memory rs rt imm
  | .j address => [jump address]
  | .jal address => [jump address]

/-- The branch field of a label: `(label - (address of branch + 4)) / 4`, which the field's 16 bits hold where the label
is within reach (R84). -/
def branchField (p label : Word) : BitVec 16 := (label - (p + 4#32)).extractLsb' 2 16

/-- The jump field of a label: `label[27:2]` (R84). -/
def jumpField (label : Word) : BitVec 26 := label.extractLsb' 2 26

namespace Pseudo

/-- `nop`, the word 0x00000000 (R81, R85). -/
def nop : Instr := .sll 0 0 0 0
/-- `move rd, rs` (R85). -/
def move (rd rs : RegIdx) : Instr := .addu rs 0 rd 0
/-- `not rd, rs` (R85). -/
def not (rd rs : RegIdx) : Instr := .nor rs 0 rd 0
/-- `neg rd, rs` (R85). -/
def neg (rd rs : RegIdx) : Instr := .sub 0 rs rd 0
/-- `b label` (R85). -/
def b (imm : BitVec 16) : Instr := .beq 0 0 imm
/-- `beqz rs, label` (R85). -/
def beqz (rs : RegIdx) (imm : BitVec 16) : Instr := .beq rs 0 imm
/-- `bnez rs, label` (R85). -/
def bnez (rs : RegIdx) (imm : BitVec 16) : Instr := .bne rs 0 imm
/-- `li rt, n`: ADDIU for -32768..32767, ORI for 0..65535; any other value needs LUI and is not executable on this
hardware (R85, R144). For 0..32767 both rows of R85's table apply, and the spec does not say which is used: the model takes
ADDIU (DESIGN CHOICE, notes/assumptions/13.md). -/
def li (rt : RegIdx) (n : Int) : Option Instr :=
  if -32768 ≤ n ∧ n ≤ 32767 then some (.addiu 0 rt (BitVec.ofInt 16 n))
  else if 0 ≤ n ∧ n ≤ 65535 then some (.ori 0 rt (BitVec.ofInt 16 n))
  else none
/-- `jr $ra`, a real instruction (R85, R142). -/
def ret : Instr := .jr 31 0 0 0

end Pseudo

end Sys2Proof
end

