-- ==== Sys2Proof/Machine/Interface.lean ====
section
/-! DEFINITION. The transaction-level interface of the block (spec/10_state.md R33, R34) and the host's protocol around it
(spec/70_reset_and_hazards.md R175–R178). -/

namespace Sys2Proof.Machine

/-- The output ports (R33). -/
structure Outputs where
  fetchIndex : BitVec 30
  pc : Word
  report : Report
  xOut : Vector Word 32
  hi : Word
  lo : Word
deriving DecidableEq, Repr

/-- What the host reads between steps, without a side effect; `x[0]` reads 0 (R33, R34). -/
def outputs (s : State) : Outputs where
  fetchIndex := Sys2Proof.Machine.fetchIndex s
  pc := s.pc
  report := Sys2Proof.Machine.report s
  xOut := Vector.ofFn fun i => readReg s (BitVec.ofFin i)
  hi := s.hi
  lo := s.lo

/-- The control events that reach the core: no other input exists (R33, R162). The host has no write move (R35). -/
inductive Event where
  | reset
  | step (instr : Word)
deriving DecidableEq, Repr

/-- The core's answer to an event (R33, R95, R173). -/
def onEvent (e : Event) (s : State) : Result :=
  match e with
  | .reset => .next (applyReset s)
  | .step w => coreStep w s

/-- The state from which the host runs the program `p` (R174, R175). -/
def boot (p : Memory) : State := withProgram State.reset p

/-- The host's bounds check: the run is over (R176). -/
def runOver (s : State) : Bool := decide (programLength s ≤ (fetchIndex s).toNat)

/-- How a run under fuel ends: in a final state (R176), or where the host stopped (R177). -/
inductive RunEnd where
  | final (s : State)
  | stopped (s : State)
deriving DecidableEq, Repr

/-- The host's loop for at most `fuel` steps (R175–R177). A step that answered no next state would end the loop as a
stop; none does inside the array. -/
def runHost (fuel : Nat) (s : State) : RunEnd :=
  match fuel with
  | 0 => if runOver s then .final s else .stopped s
  | n + 1 =>
    if runOver s then .final s
    else
      match cycle s with
      | .next t => runHost n t
      | .fault _ => .stopped s
      | .refused _ => .stopped s

end Sys2Proof.Machine
end

