-- ==== Sys2Proof/Safety.lean ====
section
/-! DEFINITION. What counts as a run free of diagnostics, the invariant of the machine, and the words the statements are
written in: what an instruction changes together with its frame, what it leaves unchanged. -/

namespace Sys2Proof.Machine

/-- No report other than OK was recorded (spec/60_exceptions.md R170). -/
abbrev DiagnosticFree (s : State) : Prop := ∀ r ∈ s.history, r = Report.ok

/-- Register 0's own storage is zero (R37, "x 0 = 0 is an invariant"), and the program array has its form (R44). -/
abbrev Inv (s : State) : Prop := s.x[0] = 0#32 ∧ Memory.wf s.program = true

/-- The instructions that have a handler; the other nine run the default handler (spec/40_dispatch.md R100). -/
def handled (n : Instr) : Bool :=
  match n.toRecord with
  | .r _ _ _ _ _ => true
  | .i o _ _ _ =>
    match o with
    | .beq => true
    | .bne => true
    | .addi => true
    | .addiu => true
    | .slti => true
    | .sltiu => true
    | .andi => true
    | .ori => true
    | _ => false
  | .j _ _ => true

/-- The general registers an instruction reads as sources (spec/10_state.md R24). -/
def sources (n : Instr) : List RegIdx :=
  match n with
  | .sll _ rt _ _ => [rt]
  | .srl _ rt _ _ => [rt]
  | .jr rs _ _ _ => [rs]
  | .mfhi _ _ _ _ => []
  | .mflo _ _ _ _ => []
  | .mult rs rt _ _ => [rs, rt]
  | .multu rs rt _ _ => [rs, rt]
  | .div rs rt _ _ => [rs, rt]
  | .divu rs rt _ _ => [rs, rt]
  | .add rs rt _ _ => [rs, rt]
  | .addu rs rt _ _ => [rs, rt]
  | .sub rs rt _ _ => [rs, rt]
  | .subu rs rt _ _ => [rs, rt]
  | .and rs rt _ _ => [rs, rt]
  | .or rs rt _ _ => [rs, rt]
  | .nor rs rt _ _ => [rs, rt]
  | .slt rs rt _ _ => [rs, rt]
  | .sltu rs rt _ _ => [rs, rt]
  | .beq rs rt _ => [rs, rt]
  | .bne rs rt _ => [rs, rt]
  | .addi rs _ _ => [rs]
  | .addiu rs _ _ => [rs]
  | .slti rs _ _ => [rs]
  | .sltiu rs _ _ => [rs]
  | .andi rs _ _ => [rs]
  | .ori rs _ _ => [rs]
  | .lui _ _ _ => []
  | .lw _ _ _ => []
  | .lbu _ _ _ => []
  | .lhu _ _ _ => []
  | .sb _ _ _ => []
  | .sh _ _ _ => []
  | .sw _ _ _ => []
  | .ll _ _ _ => []
  | .sc _ _ _ => []
  | .j _ => []
  | .jal _ => []

/-- The program array reads the same at every index and has the same length: nothing was stored. -/
def SameProgram (s t : State) : Prop :=
  (∀ k, fetchWord t k = fetchWord s k) ∧ programLength t = programLength s

/-- The step's one report is `r`, added to the history; the report output shows it. -/
def Reports (s t : State) (r : Report) : Prop := t.history = r :: s.history ∧ report t = r

/-- From `s` to `t` the register `rd` takes the value `v`, unless it is register 0, which discards it; every other
register, the accumulators, pc and the program array are unchanged; the report is OK. -/
def WritesReg (s t : State) (rd : RegIdx) (v : Word) : Prop :=
  (∀ q, readReg t q = if q = rd ∧ q ≠ 0#5 then v else readReg s q) ∧
  t.hi = s.hi ∧ t.lo = s.lo ∧ t.pc = s.pc ∧ SameProgram s t ∧ Reports s t .ok

/-- From `s` to `t` the accumulators take the values `h` and `l`; every register, pc and the program array are
unchanged; the report is OK. -/
def WritesHiLo (s t : State) (h l : Word) : Prop :=
  t.hi = h ∧ t.lo = l ∧
  (∀ q, readReg t q = readReg s q) ∧ t.pc = s.pc ∧ SameProgram s t ∧ Reports s t .ok

/-- From `s` to `t` pc takes the value `target`; every register, the accumulators and the program array are unchanged;
the report is OK. -/
def WritesPc (s t : State) (target : Word) : Prop :=
  t.pc = target ∧
  (∀ q, readReg t q = readReg s q) ∧ t.hi = s.hi ∧ t.lo = s.lo ∧ SameProgram s t ∧ Reports s t .ok

/-- From `s` to `t` nothing changes but the report, which is `r`. -/
def OnlyReports (s t : State) (r : Report) : Prop :=
  (∀ q, readReg t q = readReg s q) ∧ t.hi = s.hi ∧ t.lo = s.lo ∧ t.pc = s.pc ∧ SameProgram s t ∧ Reports s t r

/-- Two states with the same architectural state, the tuple of R37 (registers as they read). -/
def SameArch (s t : State) : Prop :=
  (∀ q, readReg t q = readReg s q) ∧ t.hi = s.hi ∧ t.lo = s.lo ∧ t.pc = s.pc

end Sys2Proof.Machine
end

