-- ==== Sys2Proof/Certificates/Slice0/Obligations.lean ====
section
/-! DEFINITION. The statements, from the numbered rules of spec/. A statement about `exec` is about the handler, which runs
in a state whose pc the step has already advanced to `P + 4` (R97); a statement about `step` is about the whole cycle.
Words and fields are written with the library's own readings (`toInt`, `toNat`, slices), not with the model's. -/

open Sys2Proof Sys2Proof.Machine

/-! ### Codec, layout, decoder, encoder (spec/30_encoding.md) -/

/-- R62: `mask_for(width)` sets exactly the low `width` bits, for widths 1 to 32, and fails otherwise. -/
def Obligations.MaskForSetsTheLowBits : Prop :=
  ∀ width : Nat,
    (1 ≤ width ∧ width ≤ 32 → ∃ m, Codec.maskFor width = .ok m ∧ m.toNat = 2 ^ width - 1 ∧
      ∀ i < 32, m.getLsbD i = decide (i < width)) ∧
    (¬(1 ≤ width ∧ width ≤ 32) → Codec.maskFor width = .error .rangeError)

/-- R63: `field_mask(width, position)` sets the bits from `position` on, those past bit 31 dropped; out of range it
fails. -/
def Obligations.FieldMaskSetsTheFieldBits : Prop :=
  ∀ width position : Nat,
    (1 ≤ width ∧ width ≤ 32 ∧ position ≤ 31 → ∃ m, Codec.fieldMask width position = .ok m ∧
      ∀ i < 32, m.getLsbD i = decide (position ≤ i ∧ i < position + width)) ∧
    (¬(1 ≤ width ∧ width ≤ 32 ∧ position ≤ 31) → Codec.fieldMask width position = .error .rangeError)

/-- R65, which the spec marks as derived from R59, R63 and R64: the fields of a word are the codec's extractions with the
constant pairs of R59. -/
def Obligations.FieldsAreCodecExtractions : Prop :=
  ∀ w : Word,
    (∀ width position, (width, position) ∈ Format.layout .R ++ Format.layout .I ++ Format.layout .J →
      ∃ m, Codec.fieldMask width position = .ok m ∧
        Codec.extract w m position = .ok ((w.extractLsb' position width).setWidth 32)) ∧
    opcodeField w = w.extractLsb' 26 6 ∧ rsField w = w.extractLsb' 21 5 ∧ rtField w = w.extractLsb' 16 5 ∧
    rdField w = w.extractLsb' 11 5 ∧ shamtField w = w.extractLsb' 6 5 ∧ functField w = w.extractLsb' 0 6 ∧
    immediateField w = w.extractLsb' 0 16 ∧ addressField w = w.extractLsb' 0 26

/-- R61: in each format the widths sum to 32, every bit belongs to exactly one field, the masks OR to all ones; and
repacking the fields of a word gives the word back. -/
def Obligations.FieldsPartitionTheWord : Prop :=
  (∀ f : Format,
    ((Format.layout f).map Prod.fst).sum = 32 ∧
    (∀ i < 32, ((Format.layout f).filter (fun p => decide (p.2 ≤ i ∧ i < p.2 + p.1))).length = 1) ∧
    ∃ ms : List Word, (Format.layout f).mapM (fun p => (Codec.fieldMask p.1 p.2).toOption) = some ms ∧
      ms.foldl (fun a b => a ||| b) 0 = 0xFFFFFFFF#32) ∧
  (∀ w : Word,
    (opcodeField w = 0 → encR (rsField w) (rtField w) (rdField w) (shamtField w) (functField w) = w) ∧
    encI (opcodeField w) (rsField w) (rtField w) (immediateField w) = w ∧
    encJ (opcodeField w) (addressField w) = w)

/-- R75: the decoder, clause by clause, over slices and literal code lists. -/
def Obligations.DecoderFunction : Prop :=
  ∀ w : Word,
    (w.extractLsb' 26 6 = 0x00#6 →
      w.extractLsb' 0 6 ∈ [0x00#6, 0x02#6, 0x08#6, 0x10#6, 0x12#6, 0x18#6, 0x19#6, 0x1A#6, 0x1B#6, 0x20#6, 0x21#6,
        0x22#6, 0x23#6, 0x24#6, 0x25#6, 0x27#6, 0x2A#6, 0x2B#6] →
      ∃ f : Funct, f.code = w.extractLsb' 0 6 ∧ f ∈ Funct.members ∧
        decode w = .ok (.r (w.extractLsb' 21 5) (w.extractLsb' 16 5) (w.extractLsb' 11 5) (w.extractLsb' 6 5) f)) ∧
    (w.extractLsb' 26 6 = 0x00#6 →
      w.extractLsb' 0 6 ∉ [0x00#6, 0x02#6, 0x08#6, 0x10#6, 0x12#6, 0x18#6, 0x19#6, 0x1A#6, 0x1B#6, 0x20#6, 0x21#6,
        0x22#6, 0x23#6, 0x24#6, 0x25#6, 0x27#6, 0x2A#6, 0x2B#6] →
      decode w = .error (.badFunct (w.extractLsb' 0 6))) ∧
    (w.extractLsb' 26 6 ∈ [0x02#6, 0x03#6] →
      ∃ o : Opcode, o.code = w.extractLsb' 26 6 ∧ decode w = .ok (.j o (w.extractLsb' 0 26))) ∧
    (w.extractLsb' 26 6 ∈ [0x04#6, 0x05#6, 0x08#6, 0x09#6, 0x0A#6, 0x0B#6, 0x0C#6, 0x0D#6, 0x0F#6, 0x23#6, 0x24#6,
        0x25#6, 0x28#6, 0x29#6, 0x2B#6, 0x30#6, 0x38#6] →
      ∃ o : Opcode, o.code = w.extractLsb' 26 6 ∧
        decode w = .ok (.i o (w.extractLsb' 21 5) (w.extractLsb' 16 5) (w.extractLsb' 0 16))) ∧
    (w.extractLsb' 26 6 ∉ [0x00#6, 0x02#6, 0x03#6, 0x04#6, 0x05#6, 0x08#6, 0x09#6, 0x0A#6, 0x0B#6, 0x0C#6, 0x0D#6,
        0x0F#6, 0x23#6, 0x24#6, 0x25#6, 0x28#6, 0x29#6, 0x2B#6, 0x30#6, 0x38#6] →
      decode w = .error (.badOpcode (w.extractLsb' 26 6)))

/-- R77, R78: every row of the two code maps, with its mnemonic's member and its format; the R rows by funct. -/
def Obligations.CodeMapsAreTheSpecs : Prop :=
  (∀ p ∈ [((0x00#6 : Code), Opcode.rType, Format.R), (0x02#6, .j, .J), (0x03#6, .jal, .J), (0x04#6, .beq, .I),
      (0x05#6, .bne, .I), (0x08#6, .addi, .I), (0x09#6, .addiu, .I), (0x0A#6, .slti, .I), (0x0B#6, .sltiu, .I),
      (0x0C#6, .andi, .I), (0x0D#6, .ori, .I), (0x0F#6, .lui, .I), (0x23#6, .lw, .I), (0x24#6, .lbu, .I),
      (0x25#6, .lhu, .I), (0x28#6, .sb, .I), (0x29#6, .sh, .I), (0x2B#6, .sw, .I), (0x30#6, .ll, .I),
      (0x38#6, .sc, .I)],
    Opcode.ofCode p.1 = some p.2.1 ∧ p.2.1.format = p.2.2) ∧
  (∀ p ∈ [((0x00#6 : Code), Funct.sll), (0x02#6, .srl), (0x08#6, .jr), (0x10#6, .mfhi), (0x12#6, .mflo),
      (0x18#6, .mult), (0x19#6, .multu), (0x1A#6, .div), (0x1B#6, .divu), (0x20#6, .add), (0x21#6, .addu),
      (0x22#6, .sub), (0x23#6, .subu), (0x24#6, .and), (0x25#6, .or), (0x27#6, .nor), (0x2A#6, .slt),
      (0x2B#6, .sltu)],
    Funct.ofCodeWith Config.extraRecognizedFuncts p.1 = some p.2) ∧
  Config.extraRecognizedFuncts = []

/-- Words written out from the spec's encodings, one or more of each family, decode to their instructions
(95_test_vectors.md E1–E4 and section 2). -/
def Obligations.SampleWordsDecode : Prop :=
  decodeInstr 0x00221820#32 = some (.add 1 2 3 0) ∧
  decodeInstr 0x1022002A#32 = some (.beq 1 2 42) ∧
  decodeInstr 0x0800000A#32 = some (.j 10) ∧
  decodeInstr 0x0C000006#32 = some (.jal 6) ∧
  decodeInstr 0x00086102#32 = some (.srl 0 8 12 4) ∧
  decodeInstr 0x0109001A#32 = some (.div 8 9 0 0) ∧
  decodeInstr 0x00005810#32 = some (.mfhi 0 0 11 0) ∧
  decodeInstr 0x2909000A#32 = some (.slti 8 9 10) ∧
  decodeInstr 0x3C081234#32 = some (.lui 0 8 0x1234) ∧
  decodeInstr 0xE0220000#32 = some (.sc 1 2 0) ∧
  decode 0xFC000000#32 = .error (.badOpcode 0x3F) ∧
  decode 0x0000003F#32 = .error (.badFunct 0x3F)

/-- R83, which the spec marks as derived from R59 and R61: the three encoders; re-encoding a decoded record gives the word back; decoding the encoding of a record with
recognized codes gives the record back. -/
def Obligations.RecordsRoundTrip : Prop :=
  (∀ (rs rt rd shamt : BitVec 5) (f : Funct), encodeRecord (.r rs rt rd shamt f) =
    (0x00#32 <<< 26) ||| (rs.setWidth 32 <<< 21) ||| (rt.setWidth 32 <<< 16) ||| (rd.setWidth 32 <<< 11)
      ||| (shamt.setWidth 32 <<< 6) ||| f.code.setWidth 32) ∧
  (∀ (o : Opcode) (rs rt : BitVec 5) (imm : BitVec 16), encodeRecord (.i o rs rt imm) =
    (o.code.setWidth 32 <<< 26) ||| (rs.setWidth 32 <<< 21) ||| (rt.setWidth 32 <<< 16) ||| imm.setWidth 32) ∧
  (∀ (o : Opcode) (a : BitVec 26), encodeRecord (.j o a) = (o.code.setWidth 32 <<< 26) ||| a.setWidth 32) ∧
  (∀ (w : Word) (d : Record), decode w = .ok d → encodeRecord d = w) ∧
  (∀ d : Record, d.wf = true → decode (encodeRecord d) = .ok d)

/-- Decode and encode agree on instructions, in both directions, for every instruction and every operand (from R83 and
R109). -/
def Obligations.InstructionsRoundTrip : Prop :=
  (∀ i : Instr, i.WellFormed → decodeInstr (encode i) = some i) ∧
  (∀ (w : Word) (i : Instr), decodeInstr w = some i → i.WellFormed ∧ encode i = w)

/-- A count of R79, which the spec marks as derived from R75, R77 and R78: exactly `18 * 2^20 + 19 * 2^26` words decode. -/
def Obligations.DecodableWordCount : Prop :=
  Set.ncard {w : Word | ∃ d, decode w = .ok d} = 18 * 2 ^ 20 + 19 * 2 ^ 26

/-! ### Registers, reset, interface (spec/10_state.md, spec/70_reset_and_hazards.md) -/

/-- R21: register 0 reads zero and a write of it does nothing; every other register holds what was written; with the flag
false register 0 is an ordinary register, zero after reset. -/
def Obligations.RegisterZeroIsHardwired : Prop :=
  Config.r0Hardwired = true ∧
  (∀ s : State, readReg s 0#5 = 0x00000000#32) ∧
  (∀ (s : State) (v : Word), writeReg s 0#5 v = s) ∧
  (∀ (s : State) (r : RegIdx) (v : Word), r ≠ 0#5 → readReg (writeReg s r v) r = v) ∧
  (∀ (s : State) (r q : RegIdx) (v : Word), q ≠ r → readReg (writeReg s r v) q = readReg s q) ∧
  (∀ (s : State) (r q : RegIdx) (v : Word),
    readRegWith false (writeRegWith false s r v) q = if q = r then v else readRegWith false s q) ∧
  (∀ q : RegIdx, readRegWith false State.reset q = 0x00000000#32)

/-- R171: after reset every register, both accumulators and pc are zero, in the storage too, and the report output is
OK. -/
def Obligations.ResetIsAllZero : Prop :=
  (∀ r : RegIdx, readReg State.reset r = 0x00000000#32) ∧ (∀ i : Fin 32, State.reset.x[i] = 0x00000000#32) ∧
  State.reset.hi = 0x00000000#32 ∧ State.reset.lo = 0x00000000#32 ∧ State.reset.pc = 0x00000000#32 ∧
  report State.reset = .ok

/-- R173: the reset event does not depend on the registers before it, leaves the program array as it is, and the first
fetch after it is at index 0 (R172). That the event history starts empty is the model's choice (log 6). -/
def Obligations.ResetEventStartsANewRun : Prop :=
  ∀ s : State, ∃ t, onEvent .reset s = .next t ∧ SameArch State.reset t ∧ SameProgram s t ∧ report t = .ok ∧
    fetchIndex t = 0#30 ∧ t.history = [] ∧
    ∀ s' : State, s'.program = s.program → onEvent .reset s' = .next t

/-- R33, R34: what the host reads: fetch index, pc, the last report, every register with `x[0]` reading 0, `hi`, `lo`;
and the event `step` with the fetched word is the step. The report is read off the event history (log 3). -/
def Obligations.OutputsAreTheState : Prop :=
  ∀ s : State,
    (outputs s).fetchIndex = s.pc.extractLsb' 2 30 ∧ (outputs s).pc = s.pc ∧ (outputs s).report = report s ∧
    (∀ i : Fin 32, (outputs s).xOut[i] = readReg s (BitVec.ofNat 5 i.val)) ∧ (outputs s).xOut[0] = 0x00000000#32 ∧
    (outputs s).hi = s.hi ∧ (outputs s).lo = s.lo ∧
    (∀ w, fetch s = some w → step s = onEvent (.step w) s)

/-! ### The step (spec/20_memory.md, spec/40_dispatch.md) -/

/-- A step runs the decoded instruction: where the word at `pc / 4` decodes to `i`, `step` is `exec i` in the state whose
pc is advanced by 4 and which is otherwise the same (R95, R97). -/
def Obligations.StepRunsTheDecodedInstruction : Prop :=
  ∀ (s : State) (w : Word) (i : Instr), fetchWord s (s.pc.toNat / 4) = some w → decodeInstr w = some i →
    i.WellFormed ∧ step s = exec i (advancePc s) ∧ (advancePc s).pc = s.pc + 4#32 ∧ (advancePc s).x = s.x ∧
    (advancePc s).hi = s.hi ∧ (advancePc s).lo = s.lo ∧ (advancePc s).program = s.program ∧
    (advancePc s).history = s.history

/-- R42: the fetch index is `floor(u(pc) / 4)`, and `pc[1:0]` does not affect the fetch. -/
def Obligations.FetchIndexIsFloorOfPc : Prop :=
  ∀ s : State, (fetchIndex s).toNat = s.pc.toNat / 4 ∧ fetch s = fetchWord s (s.pc.toNat / 4) ∧
    ∀ p : Word, p.extractLsb' 2 30 = s.pc.extractLsb' 2 30 → fetch (setPc s p) = fetch s

/-- Inside the program array every step answers a next state, whatever the word; outside it the step stops with the one
fault, and it never refuses (R41, R105, R170, R176; the fault's form is the model's, log 2). -/
def Obligations.StepAnswersExactlyInsideTheArray : Prop :=
  ∀ s : State,
    (s.pc.toNat / 4 < programLength s → ∃ t, step s = .next t) ∧
    (programLength s ≤ s.pc.toNat / 4 → step s = .fault .fetchOutsideProgram)

/-- R97: pc advances by 4 in every step, whatever the word; it ends there unless a branch or a jump writes it. -/
def Obligations.PcAdvancesByFour : Prop :=
  ∀ (s t : State) (w : Word), fetch s = some w → step s = .next t →
    ¬ (w.extractLsb' 26 6 ∈ [0x02#6, 0x03#6, 0x04#6, 0x05#6]) →
    ¬ (w.extractLsb' 26 6 = 0x00#6 ∧ w.extractLsb' 0 6 = 0x08#6) →
    t.pc = s.pc + 4#32

/-- R98, R155, R156: a word that does not decode advances pc, gives its report with the code, and changes nothing else. -/
def Obligations.DecodeFailureOnlyAdvances : Prop :=
  ∀ (s : State) (w : Word) (f : DecodeFailure), fetch s = some w → decode w = .error f →
    ∃ t, step s = .next t ∧ t.pc = s.pc + 4#32 ∧ (∀ r, readReg t r = readReg s r) ∧ t.hi = s.hi ∧ t.lo = s.lo ∧
      SameProgram s t ∧ Reports s t (.decodeFailure f) ∧
      (f = .badOpcode (w.extractLsb' 26 6) ∨ w.extractLsb' 26 6 = 0x00#6 ∧ f = .badFunct (w.extractLsb' 0 6))

/-- R143 to R152: each opcode without a handler reports `UnhandledInstruction(I, opcode)` and changes nothing else, for
every value of its fields. -/
def Obligations.UnhandledInstructionsOnlyReport : Prop :=
  ∀ (rs rt : BitVec 5) (imm : BitVec 16) (s : State),
    (∃ t, exec (.lui rs rt imm) s = .next t ∧ OnlyReports s t (.unhandledInstruction .I 0x0F#6)) ∧
    (∃ t, exec (.lw rs rt imm) s = .next t ∧ OnlyReports s t (.unhandledInstruction .I 0x23#6)) ∧
    (∃ t, exec (.lbu rs rt imm) s = .next t ∧ OnlyReports s t (.unhandledInstruction .I 0x24#6)) ∧
    (∃ t, exec (.lhu rs rt imm) s = .next t ∧ OnlyReports s t (.unhandledInstruction .I 0x25#6)) ∧
    (∃ t, exec (.sb rs rt imm) s = .next t ∧ OnlyReports s t (.unhandledInstruction .I 0x28#6)) ∧
    (∃ t, exec (.sh rs rt imm) s = .next t ∧ OnlyReports s t (.unhandledInstruction .I 0x29#6)) ∧
    (∃ t, exec (.sw rs rt imm) s = .next t ∧ OnlyReports s t (.unhandledInstruction .I 0x2B#6)) ∧
    (∃ t, exec (.ll rs rt imm) s = .next t ∧ OnlyReports s t (.unhandledInstruction .I 0x30#6)) ∧
    (∃ t, exec (.sc rs rt imm) s = .next t ∧ OnlyReports s t (.unhandledInstruction .I 0x38#6))

/-- R108, which the spec marks as derived from R98 and R101: were a funct in the extra set, its words would decode and report `UnhandledInstruction(R, funct)`; here they
are `DecodeFailure(BadFunct)`; the two outcomes differ in the report alone, and both end at `P + 4` with the registers
and accumulators unchanged. -/
def Obligations.ExtraFunctsDifferOnlyInTheReport : Prop :=
  ∀ (extra : List Code) (w : Word) (s : State), w.extractLsb' 26 6 = 0x00#6 → w.extractLsb' 0 6 ∈ extra →
    w.extractLsb' 0 6 ∉ [0x00#6, 0x02#6, 0x08#6, 0x10#6, 0x12#6, 0x18#6, 0x19#6, 0x1A#6, 0x1B#6, 0x20#6, 0x21#6,
      0x22#6, 0x23#6, 0x24#6, 0x25#6, 0x27#6, 0x2A#6, 0x2B#6] →
    (∃ d, decodeWith extra w = .ok d ∧ d.format = .R ∧ d.code = w.extractLsb' 0 6) ∧
    (∃ t, coreStepWith extra w s = .next t ∧
      OnlyReports (advancePc s) t (.unhandledInstruction .R (w.extractLsb' 0 6))) ∧
    (∃ t, coreStep w s = .next t ∧ OnlyReports (advancePc s) t (.decodeFailure (.badFunct (w.extractLsb' 0 6))))

/-- R109 (with R100, R102): decoder and dispatch stay in step: a word decodes if and only if dispatch finds an entry for
it; every entry is for a code the decoder accepts; the entry of a record is its own code's and no other's; and the entries
that run the default handler are exactly the nine listed opcodes', whatever the state. -/
def Obligations.DispatchMatchesTheDecoder : Prop :=
  (∀ w : Word, (∃ d, decode w = .ok d) ↔ ∃ i, decodeInstr w = some i) ∧
  (∀ i : Instr, decode (encode i) = .ok i.toRecord) ∧
  (∀ (d : Record) (i : Instr), d.toInstr = some i → i.toRecord = d) ∧
  (∀ (i : Instr) (s t : State), exec i s = .next t →
    (report t = .unhandledInstruction i.toRecord.format i.toRecord.code ↔
      i.toRecord.format = .I ∧
        i.toRecord.code ∈ [0x0F#6, 0x23#6, 0x24#6, 0x25#6, 0x28#6, 0x29#6, 0x2B#6, 0x30#6, 0x38#6]))

/-- R104: the one report of a step, for every word and state, by the first cause that holds. The order of the causes is
R161's, which the spec marks as derived from R75 and R95. -/
def Obligations.ReportIsTheFirstCause : Prop :=
  ∀ (s : State) (w : Word), fetch s = some w → ∃ t, step s = .next t ∧ Reports s t
    (if w.extractLsb' 26 6 ∉ [0x00#6, 0x02#6, 0x03#6, 0x04#6, 0x05#6, 0x08#6, 0x09#6, 0x0A#6, 0x0B#6, 0x0C#6, 0x0D#6,
        0x0F#6, 0x23#6, 0x24#6, 0x25#6, 0x28#6, 0x29#6, 0x2B#6, 0x30#6, 0x38#6] then
      .decodeFailure (.badOpcode (w.extractLsb' 26 6))
    else if w.extractLsb' 26 6 = 0x00#6 ∧ w.extractLsb' 0 6 ∉ [0x00#6, 0x02#6, 0x08#6, 0x10#6, 0x12#6, 0x18#6, 0x19#6,
        0x1A#6, 0x1B#6, 0x20#6, 0x21#6, 0x22#6, 0x23#6, 0x24#6, 0x25#6, 0x27#6, 0x2A#6, 0x2B#6] then
      .decodeFailure (.badFunct (w.extractLsb' 0 6))
    else if w.extractLsb' 26 6 ∈ [0x0F#6, 0x23#6, 0x24#6, 0x25#6, 0x28#6, 0x29#6, 0x2B#6, 0x30#6, 0x38#6] then
      .unhandledInstruction .I (w.extractLsb' 26 6)
    else if w.extractLsb' 26 6 = 0x00#6 ∧ w.extractLsb' 0 6 ∈ [0x1A#6, 0x1B#6] ∧
        readReg s (w.extractLsb' 16 5) = 0x00000000#32 then
      .divideByZero
    else .ok)

/-! ### Rules over every step -/

/-- R37, R44: the invariant holds at reset: register 0's storage is zero, and the program array has at most 2^30 words. The
bound is the model's reading (log 7), and the array has that form because the model's reset state has an empty one
(log 5). -/
def Obligations.InvariantHoldsAtReset : Prop := Inv State.reset

/-- R37: every step, and every event, keeps the invariant (the array's bound is the model's reading, log 7). -/
def Obligations.StepKeepsTheInvariant : Prop :=
  (∀ s t : State, Inv s → step s = .next t → Inv t) ∧
  (∀ (e : Event) (s t : State), Inv s → onEvent e s = .next t → Inv t)

/-- R53: no run of any length writes the program array: every fetch reads the same word throughout. -/
def Obligations.RunsNeverWriteTheProgram : Prop :=
  ∀ (n : Nat) (s t : State), Host.Core.run core n s = .next t → SameProgram s t

/-- R104, R170: a run of `n` steps adds exactly `n` reports to the event history and changes none before
them. The event history as a field is the model's form (log 3). -/
def Obligations.RunsAddOneReportPerStep : Prop :=
  ∀ (n : Nat) (s t : State), Host.Core.run core n s = .next t →
    ∃ rs : List Report, rs.length = n ∧ t.history = rs ++ s.history

/-- R23: a step changes a general register only as one of the listed instructions' destination. -/
def Obligations.OnlyListedInstructionsWriteRegisters : Prop :=
  ∀ (s t : State) (w : Word) (q : RegIdx), fetch s = some w → step s = .next t → readReg t q ≠ readReg s q →
    (w.extractLsb' 26 6 = 0x00#6 ∧ q = w.extractLsb' 11 5 ∧
      w.extractLsb' 0 6 ∈ [0x20#6, 0x21#6, 0x22#6, 0x23#6, 0x24#6, 0x25#6, 0x27#6, 0x2A#6, 0x2B#6, 0x00#6, 0x02#6,
        0x10#6, 0x12#6]) ∨
    (w.extractLsb' 26 6 ∈ [0x08#6, 0x09#6, 0x0A#6, 0x0B#6, 0x0C#6, 0x0D#6] ∧ q = w.extractLsb' 16 5) ∨
    (w.extractLsb' 26 6 = 0x03#6 ∧ q = 31#5)

/-- R26 with R25: a step changes `hi` or `lo` only as MULT, MULTU, or as DIV or DIVU with a divisor that is not zero; a
zero divisor leaves both and reports DivideByZero. -/
def Obligations.OnlyMultiplyAndDivideWriteAccumulators : Prop :=
  ∀ (s t : State) (w : Word), fetch s = some w → step s = .next t →
    (t.hi ≠ s.hi ∨ t.lo ≠ s.lo →
      w.extractLsb' 26 6 = 0x00#6 ∧ (w.extractLsb' 0 6 ∈ [0x18#6, 0x19#6] ∨
        w.extractLsb' 0 6 ∈ [0x1A#6, 0x1B#6] ∧ readReg s (w.extractLsb' 16 5) ≠ 0x00000000#32)) ∧
    (w.extractLsb' 26 6 = 0x00#6 → w.extractLsb' 0 6 ∈ [0x1A#6, 0x1B#6] →
      readReg s (w.extractLsb' 16 5) = 0x00000000#32 → t.hi = s.hi ∧ t.lo = s.lo ∧ Reports s t .divideByZero)

/-- R25: the accumulators are read only by MFHI and MFLO: for every other instruction, other values in them change
nothing in the registers, pc or the report, and the accumulators themselves take the same values in both runs or are kept
in both. -/
def Obligations.OnlyMovesReadAccumulators : Prop :=
  ∀ (i : Instr) (s : State) (h l : Word), (∀ rs rt rd shamt, i ≠ .mfhi rs rt rd shamt ∧ i ≠ .mflo rs rt rd shamt) →
    ∃ t t', exec i s = .next t ∧ exec i (setHiLo s h l) = .next t' ∧
      (∀ q, readReg t' q = readReg t q) ∧ t'.pc = t.pc ∧ t'.history = t.history ∧
      ((t'.hi = t.hi ∧ t'.lo = t.lo) ∨ (t.hi = s.hi ∧ t.lo = s.lo ∧ t'.hi = h ∧ t'.lo = l))

/-- R24: an instruction reads no general register but its sources: another value in any other register `q` changes
nothing else, and `q` itself takes the same value in both runs or is kept in both. -/
def Obligations.OnlySourceRegistersAreRead : Prop :=
  ∀ (i : Instr) (s : State) (q : RegIdx) (v : Word), q ∉ sources i →
    ∃ t t', exec i s = .next t ∧ exec i (writeReg s q v) = .next t' ∧
      (∀ r, r ≠ q → readReg t' r = readReg t r) ∧
      (readReg t' q = readReg t q ∨
        (readReg t q = readReg s q ∧ readReg t' q = readReg (writeReg s q v) q)) ∧ t'.hi = t.hi ∧ t'.lo = t.lo ∧ t'.pc = t.pc ∧
      t'.history = t.history

/-- R106: the result state and the report of a step are a function of the architectural state before it and the word
alone: neither the program array nor the reports before it matter. -/
def Obligations.StepDependsOnStateAndWordAlone : Prop :=
  ∀ (s s' : State) (w : Word), SameArch s s' →
    ∃ t t', coreStep w s = .next t ∧ coreStep w s' = .next t' ∧ SameArch t t' ∧ report t' = report t

/-- R38: only JR can leave a pc whose low bits are not those it had: J and JAL clear them, every other step keeps
them. -/
def Obligations.PcLowBitsChangeOnlyByJumps : Prop :=
  ∀ (s t : State) (w : Word), fetch s = some w → step s = .next t →
    (w.extractLsb' 26 6 ∈ [0x02#6, 0x03#6] → t.pc.extractLsb' 0 2 = 0#2) ∧
    (w.extractLsb' 26 6 ∉ [0x02#6, 0x03#6] → ¬ (w.extractLsb' 26 6 = 0x00#6 ∧ w.extractLsb' 0 6 = 0x08#6) →
      t.pc.extractLsb' 0 2 = s.pc.extractLsb' 0 2) ∧
    (w.extractLsb' 26 6 = 0x00#6 → w.extractLsb' 0 6 = 0x08#6 → t.pc = readReg s (w.extractLsb' 21 5))

/-- R176, R177: a run of the host's loop that ends in a final state got there by steps of the core from the start, and
stands outside the program array; one that the host stopped stands where those steps led. That the loop's one stop is at the end
of its fuel is the model's choice (log 12). -/
def Obligations.HostRunEndsOutsideTheArray : Prop :=
  ∀ (fuel : Nat) (s t : State),
    (runHost fuel s = .final t →
      programLength t ≤ t.pc.toNat / 4 ∧ ∃ n ≤ fuel, Host.Core.run core n s = .next t) ∧
    (runHost fuel s = .stopped t →
      t.pc.toNat / 4 < programLength t ∧ Host.Core.run core fuel s = .next t)

/-! ### Register-register ALU operations (spec/41_alu_register.md) -/

/-- R110, R111: ADD and ADDU: their words; ADD stores the signed sum wrapped, without a trap, ADDU the unsigned sum modulo
2^32; the two patterns are equal. -/
def Obligations.SumsWrap : Prop :=
  ∀ (rs rt rd shamt : BitVec 5) (s : State), ∃ v : Word,
    v = BitVec.ofInt 32 ((readReg s rs).toInt + (readReg s rt).toInt) ∧
    v.toNat = ((readReg s rs).toNat + (readReg s rt).toNat) % 2 ^ 32 ∧
    (decodeInstr (encR rs rt rd shamt 0x20#6) = some (.add rs rt rd shamt) ∧
      ∃ t, exec (.add rs rt rd shamt) s = .next t ∧ WritesReg s t rd v) ∧
    (decodeInstr (encR rs rt rd shamt 0x21#6) = some (.addu rs rt rd shamt) ∧
      ∃ t, exec (.addu rs rt rd shamt) s = .next t ∧ WritesReg s t rd v)

/-- R112, R113: SUB and SUBU: their words; SUB stores the signed difference wrapped, without a trap, SUBU the unsigned
difference modulo 2^32. -/
def Obligations.DifferencesWrap : Prop :=
  ∀ (rs rt rd shamt : BitVec 5) (s : State), ∃ v : Word,
    v = BitVec.ofInt 32 ((readReg s rs).toInt - (readReg s rt).toInt) ∧
    (v.toNat : Int) = (((readReg s rs).toNat : Int) - ((readReg s rt).toNat : Int)) % 2 ^ 32 ∧
    (decodeInstr (encR rs rt rd shamt 0x22#6) = some (.sub rs rt rd shamt) ∧
      ∃ t, exec (.sub rs rt rd shamt) s = .next t ∧ WritesReg s t rd v) ∧
    (decodeInstr (encR rs rt rd shamt 0x23#6) = some (.subu rs rt rd shamt) ∧
      ∃ t, exec (.subu rs rt rd shamt) s = .next t ∧ WritesReg s t rd v)

/-- R114, R115, R116: AND, OR and NOR: their words, and the result bit for bit. -/
def Obligations.LogicalOperationsAreBitwise : Prop :=
  ∀ (rs rt rd shamt : BitVec 5) (s : State),
    (decodeInstr (encR rs rt rd shamt 0x24#6) = some (.and rs rt rd shamt) ∧
      ∃ t v, exec (.and rs rt rd shamt) s = .next t ∧ WritesReg s t rd v ∧
        ∀ i < 32, v.getLsbD i = ((readReg s rs).getLsbD i && (readReg s rt).getLsbD i)) ∧
    (decodeInstr (encR rs rt rd shamt 0x25#6) = some (.or rs rt rd shamt) ∧
      ∃ t v, exec (.or rs rt rd shamt) s = .next t ∧ WritesReg s t rd v ∧
        ∀ i < 32, v.getLsbD i = ((readReg s rs).getLsbD i || (readReg s rt).getLsbD i)) ∧
    (decodeInstr (encR rs rt rd shamt 0x27#6) = some (.nor rs rt rd shamt) ∧
      ∃ t v, exec (.nor rs rt rd shamt) s = .next t ∧ WritesReg s t rd v ∧
        ∀ i < 32, v.getLsbD i = !((readReg s rs).getLsbD i || (readReg s rt).getLsbD i))

/-- R117, R118: SLT and SLTU: their words, and 1 or 0 by the signed or the unsigned order. -/
def Obligations.ComparisonsStoreOneOrZero : Prop :=
  ∀ (rs rt rd shamt : BitVec 5) (s : State),
    (decodeInstr (encR rs rt rd shamt 0x2A#6) = some (.slt rs rt rd shamt) ∧
      ∃ t, exec (.slt rs rt rd shamt) s = .next t ∧
        WritesReg s t rd (if (readReg s rs).toInt < (readReg s rt).toInt then 0x00000001#32 else 0x00000000#32)) ∧
    (decodeInstr (encR rs rt rd shamt 0x2B#6) = some (.sltu rs rt rd shamt) ∧
      ∃ t, exec (.sltu rs rt rd shamt) s = .next t ∧
        WritesReg s t rd (if (readReg s rs).toNat < (readReg s rt).toNat then 0x00000001#32 else 0x00000000#32))

/-- R119, R120: SLL and SRL: their words; SLL multiplies by a power of two modulo 2^32, SRL divides by one, rounding
down, so zeros enter at bit 31; `rs` is ignored. -/
def Obligations.ShiftsAreLogical : Prop :=
  ∀ (rs rt rd shamt : BitVec 5) (s : State),
    (decodeInstr (encR rs rt rd shamt 0x00#6) = some (.sll rs rt rd shamt) ∧
      ∃ t v, exec (.sll rs rt rd shamt) s = .next t ∧ WritesReg s t rd v ∧
        v.toNat = (readReg s rt).toNat * 2 ^ shamt.toNat % 2 ^ 32) ∧
    (decodeInstr (encR rs rt rd shamt 0x02#6) = some (.srl rs rt rd shamt) ∧
      ∃ t v, exec (.srl rs rt rd shamt) s = .next t ∧ WritesReg s t rd v ∧
        v.toNat = (readReg s rt).toNat / 2 ^ shamt.toNat)

/-- R81: the word of zeros changes nothing but pc; and every ALU operation with destination 0 changes no register. -/
def Obligations.DestinationZeroIsANoOp : Prop :=
  (∀ s : State, ∃ t, coreStep 0x00000000#32 s = .next t ∧ OnlyReports (advancePc s) t .ok) ∧
  (∀ (s : State) (rs rt shamt : BitVec 5) (c : Code),
    c ∈ [0x00#6, 0x02#6, 0x20#6, 0x21#6, 0x22#6, 0x23#6, 0x24#6, 0x25#6, 0x27#6, 0x2A#6, 0x2B#6] →
    ∃ t, coreStep (encR rs rt 0#5 shamt c) s = .next t ∧ OnlyReports (advancePc s) t .ok)

/-- E7: ADD then SUB with the same operand gives the first operand back, modulo 2^32, where the destination is neither
register 0 nor the second operand. -/
def Obligations.AddThenSubRestores : Prop :=
  ∀ (rs rt rd shamt : BitVec 5) (s : State), rd ≠ 0#5 → rd ≠ rt →
    ∃ t t', exec (.add rs rt rd shamt) s = .next t ∧ exec (.sub rd rt rd shamt) t = .next t' ∧
      readReg t' rd = readReg s rs

/-- R80, which the spec marks as derived from R75: the fields an instruction does not use are ignored: words that differ only in them do the same. -/
def Obligations.UnusedFieldsAreIgnored : Prop :=
  ∀ (a b c d a' b' c' d' : BitVec 5) (s : State),
    exec (.sll a b c d) s = exec (.sll a' b c d) s ∧ exec (.srl a b c d) s = exec (.srl a' b c d) s ∧
    exec (.jr a b c d) s = exec (.jr a b' c' d') s ∧
    exec (.mfhi a b c d) s = exec (.mfhi a' b' c d') s ∧ exec (.mflo a b c d) s = exec (.mflo a' b' c d') s ∧
    exec (.mult a b c d) s = exec (.mult a b c' d') s ∧ exec (.multu a b c d) s = exec (.multu a b c' d') s ∧
    exec (.div a b c d) s = exec (.div a b c' d') s ∧ exec (.divu a b c d) s = exec (.divu a b c' d') s ∧
    exec (.add a b c d) s = exec (.add a b c d') s ∧ exec (.addu a b c d) s = exec (.addu a b c d') s ∧
    exec (.sub a b c d) s = exec (.sub a b c d') s ∧ exec (.subu a b c d) s = exec (.subu a b c d') s ∧
    exec (.and a b c d) s = exec (.and a b c d') s ∧ exec (.or a b c d) s = exec (.or a b c d') s ∧
    exec (.nor a b c d) s = exec (.nor a b c d') s ∧ exec (.slt a b c d) s = exec (.slt a b c d') s ∧
    exec (.sltu a b c d) s = exec (.sltu a b c d') s

/-! ### Multiply, divide, accumulator moves (spec/42_muldiv_move.md) -/

/-- R121, R122: MULT and MULTU: their words; `hi` and `lo` are the high and the low half of the exact product, signed or
unsigned. -/
def Obligations.ProductsFillHiAndLo : Prop :=
  ∀ (rs rt rd shamt : BitVec 5) (s : State),
    (decodeInstr (encR rs rt rd shamt 0x18#6) = some (.mult rs rt rd shamt) ∧
      ∃ t h l, exec (.mult rs rt rd shamt) s = .next t ∧ WritesHiLo s t h l ∧
        (h ++ l : BitVec 64) = BitVec.ofInt 64 ((readReg s rs).toInt * (readReg s rt).toInt)) ∧
    (decodeInstr (encR rs rt rd shamt 0x19#6) = some (.multu rs rt rd shamt) ∧
      ∃ t h l, exec (.multu rs rt rd shamt) s = .next t ∧ WritesHiLo s t h l ∧
        (h ++ l : BitVec 64).toNat = (readReg s rs).toNat * (readReg s rt).toNat)

/-- R124: DIV: its word; a zero divisor is reported and writes nothing; -2^31 by -1 gives the wrapped quotient and
remainder 0; otherwise quotient and remainder of the division rounded toward zero. -/
def Obligations.DivTruncatesTowardZero : Prop :=
  ∀ (rs rt rd shamt : BitVec 5) (s : State),
    decodeInstr (encR rs rt rd shamt 0x1A#6) = some (.div rs rt rd shamt) ∧
    ∃ t, exec (.div rs rt rd shamt) s = .next t ∧
      (if (readReg s rt).toInt = 0 then OnlyReports s t .divideByZero
       else if (readReg s rs).toInt = -2 ^ 31 ∧ (readReg s rt).toInt = -1 then
         WritesHiLo s t 0x00000000#32 0x80000000#32
       else
         WritesHiLo s t (BitVec.ofInt 32 ((readReg s rs).toInt.tmod (readReg s rt).toInt))
           (BitVec.ofInt 32 ((readReg s rs).toInt.tdiv (readReg s rt).toInt)))

/-- R125: DIVU: its word; a zero divisor is reported and writes nothing; otherwise quotient and remainder of the unsigned
division. -/
def Obligations.DivuDividesUnsigned : Prop :=
  ∀ (rs rt rd shamt : BitVec 5) (s : State),
    decodeInstr (encR rs rt rd shamt 0x1B#6) = some (.divu rs rt rd shamt) ∧
    ∃ t, exec (.divu rs rt rd shamt) s = .next t ∧
      (if (readReg s rt).toNat = 0 then OnlyReports s t .divideByZero
       else WritesHiLo s t (BitVec.ofNat 32 ((readReg s rs).toNat % (readReg s rt).toNat))
         (BitVec.ofNat 32 ((readReg s rs).toNat / (readReg s rt).toNat)))

/-- R123: the division law. Where the divisor is not zero and the quotient fits, `lo` and `hi` read signed are quotient
and remainder: `a = lo * b + hi`, the remainder smaller than the divisor and of the dividend's sign or zero. In the one
other case the identity holds modulo 2^32. A zero divisor is reported with the accumulators unchanged. -/
def Obligations.DivisionLaw : Prop :=
  ∀ (rs rt rd shamt : BitVec 5) (s : State),
    (readReg s rt ≠ 0x00000000#32 → ¬ (readReg s rs = 0x80000000#32 ∧ readReg s rt = 0xFFFFFFFF#32) →
      ∃ t, exec (.div rs rt rd shamt) s = .next t ∧ Reports s t .ok ∧
        (readReg s rs).toInt = t.lo.toInt * (readReg s rt).toInt + t.hi.toInt ∧
        |t.hi.toInt| < |(readReg s rt).toInt| ∧
        (t.hi.toInt = 0 ∨ t.hi.toInt.sign = (readReg s rs).toInt.sign)) ∧
    (readReg s rt ≠ 0x00000000#32 →
      ∃ t, exec (.div rs rt rd shamt) s = .next t ∧ readReg s rs = t.lo * readReg s rt + t.hi) ∧
    (readReg s rt ≠ 0x00000000#32 →
      ∃ t, exec (.divu rs rt rd shamt) s = .next t ∧ Reports s t .ok ∧
        (readReg s rs).toNat = t.lo.toNat * (readReg s rt).toNat + t.hi.toNat ∧
        t.hi.toNat < (readReg s rt).toNat) ∧
    (readReg s rt = 0x00000000#32 →
      (∃ t, exec (.div rs rt rd shamt) s = .next t ∧ OnlyReports s t .divideByZero) ∧
      (∃ t, exec (.divu rs rt rd shamt) s = .next t ∧ OnlyReports s t .divideByZero))

/-- R128, which the spec marks as derived from R121, R122, R124 and R125: the reconstruction laws of MULT, MULTU, DIV and DIVU. -/
def Obligations.ReconstructionLaws : Prop :=
  ∀ (rs rt rd shamt : BitVec 5) (s : State),
    (∃ t, exec (.mult rs rt rd shamt) s = .next t ∧
      (t.hi ++ t.lo : BitVec 64).toInt = (readReg s rs).toInt * (readReg s rt).toInt) ∧
    (∃ t, exec (.multu rs rt rd shamt) s = .next t ∧
      (t.hi ++ t.lo : BitVec 64).toNat = (readReg s rs).toNat * (readReg s rt).toNat) ∧
    (readReg s rt ≠ 0x00000000#32 → ¬ ((readReg s rs).toInt = -2 ^ 31 ∧ (readReg s rt).toInt = -1) →
      ∃ t, exec (.div rs rt rd shamt) s = .next t ∧
        t.lo.toInt * (readReg s rt).toInt + t.hi.toInt = (readReg s rs).toInt) ∧
    (readReg s rt ≠ 0x00000000#32 →
      ∃ t, exec (.divu rs rt rd shamt) s = .next t ∧
        t.lo.toNat * (readReg s rt).toNat + t.hi.toNat = (readReg s rs).toNat)

/-- R126, R127: MFHI and MFLO: their words, and the accumulator copied; both accumulators stay. -/
def Obligations.MovesCopyTheAccumulators : Prop :=
  ∀ (rs rt rd shamt : BitVec 5) (s : State),
    (decodeInstr (encR rs rt rd shamt 0x10#6) = some (.mfhi rs rt rd shamt) ∧
      ∃ t, exec (.mfhi rs rt rd shamt) s = .next t ∧ WritesReg s t rd s.hi) ∧
    (decodeInstr (encR rs rt rd shamt 0x12#6) = some (.mflo rs rt rd shamt) ∧
      ∃ t, exec (.mflo rs rt rd shamt) s = .next t ∧ WritesReg s t rd s.lo)

/-! ### Immediate operations (spec/43_immediate.md) -/

/-- R129, R130: ADDI and ADDIU: their words, and the sum with the sign-extended immediate, wrapped; no trap. -/
def Obligations.ImmediateSumsSignExtend : Prop :=
  ∀ (rs rt : BitVec 5) (imm : BitVec 16) (s : State),
    (decodeInstr (encI 0x08#6 rs rt imm) = some (.addi rs rt imm) ∧
      ∃ t, exec (.addi rs rt imm) s = .next t ∧
        WritesReg s t rt (BitVec.ofInt 32 ((readReg s rs).toInt + imm.toInt))) ∧
    (decodeInstr (encI 0x09#6 rs rt imm) = some (.addiu rs rt imm) ∧
      ∃ t, exec (.addiu rs rt imm) s = .next t ∧ WritesReg s t rt (readReg s rs + imm.signExtend 32)) ∧
    BitVec.ofInt 32 ((readReg s rs).toInt + imm.toInt) = readReg s rs + imm.signExtend 32

/-- R131, R132: SLTI and SLTIU: their words, and 1 or 0; the immediate is sign-extended in both, then compared signed or
unsigned. -/
def Obligations.ImmediateComparisonsSignExtend : Prop :=
  ∀ (rs rt : BitVec 5) (imm : BitVec 16) (s : State),
    (decodeInstr (encI 0x0A#6 rs rt imm) = some (.slti rs rt imm) ∧
      ∃ t, exec (.slti rs rt imm) s = .next t ∧
        WritesReg s t rt (if (readReg s rs).toInt < imm.toInt then 0x00000001#32 else 0x00000000#32)) ∧
    (decodeInstr (encI 0x0B#6 rs rt imm) = some (.sltiu rs rt imm) ∧
      ∃ t, exec (.sltiu rs rt imm) s = .next t ∧
        WritesReg s t rt
          (if (readReg s rs).toNat < (imm.signExtend 32).toNat then 0x00000001#32 else 0x00000000#32))

/-- R133, R134: ANDI and ORI: their words, and the result bit for bit with the zero-extended immediate: ANDI clears the
high half, ORI keeps it. -/
def Obligations.ImmediateLogicZeroExtends : Prop :=
  ∀ (rs rt : BitVec 5) (imm : BitVec 16) (s : State),
    (decodeInstr (encI 0x0C#6 rs rt imm) = some (.andi rs rt imm) ∧
      ∃ t v, exec (.andi rs rt imm) s = .next t ∧ WritesReg s t rt v ∧
        (∀ i < 16, v.getLsbD i = ((readReg s rs).getLsbD i && imm.getLsbD i)) ∧
        v.extractLsb' 16 16 = 0#16) ∧
    (decodeInstr (encI 0x0D#6 rs rt imm) = some (.ori rs rt imm) ∧
      ∃ t v, exec (.ori rs rt imm) s = .next t ∧ WritesReg s t rt v ∧
        (∀ i < 16, v.getLsbD i = ((readReg s rs).getLsbD i || imm.getLsbD i)) ∧
        v.extractLsb' 16 16 = (readReg s rs).extractLsb' 16 16)

/-! ### Branches and jumps (spec/44_control.md) -/

/-- R68, R69: the branch offset is four times the signed immediate, in -131072 .. +131068; the jump target is the top 4
bits of pc with the address field times 4 below them, a multiple of 4 in the same region. -/
def Obligations.BranchOffsetsAndJumpTargets : Prop :=
  (∀ imm : BitVec 16, branchOffset imm = imm.signExtend 32 <<< 2 ∧ (branchOffset imm).toInt = 4 * imm.toInt ∧
    -131072 ≤ (branchOffset imm).toInt ∧ (branchOffset imm).toInt ≤ 131068) ∧
  (∀ (s : State) (imm : BitVec 16), branchTarget s imm = s.pc + branchOffset imm) ∧
  (∀ (s : State) (a : BitVec 26),
    jumpTarget s a = ((s.pc &&& 0xF0000000#32) ||| (a.setWidth 32 <<< 2)) ∧
    (jumpTarget s a).toNat = s.pc.toNat / 2 ^ 28 * 2 ^ 28 + 4 * a.toNat ∧ (jumpTarget s a).toNat % 4 = 0 ∧
    (jumpTarget s a).extractLsb' 28 4 = s.pc.extractLsb' 28 4)

/-- R136, R137: BEQ and BNE at address `P`: their words, and pc is `P + 4 + offset` where the branch is taken, else
`P + 4`; nothing else changes. -/
def Obligations.BranchesCompareAndJump : Prop :=
  ∀ (rs rt : BitVec 5) (imm : BitVec 16) (P : Word) (s : State), s.pc = P + 4#32 →
    (decodeInstr (encI 0x04#6 rs rt imm) = some (.beq rs rt imm) ∧
      ∃ t, exec (.beq rs rt imm) s = .next t ∧
        WritesPc s t (if readReg s rs = readReg s rt then P + 4#32 + (imm.signExtend 32 <<< 2) else P + 4#32)) ∧
    (decodeInstr (encI 0x05#6 rs rt imm) = some (.bne rs rt imm) ∧
      ∃ t, exec (.bne rs rt imm) s = .next t ∧
        WritesPc s t (if readReg s rs ≠ readReg s rt then P + 4#32 + (imm.signExtend 32 <<< 2) else P + 4#32))

/-- R138: J at address `P`: its word, and pc is the pseudo-direct target in the region of `P + 4`. -/
def Obligations.JumpGoesToThePseudoDirectTarget : Prop :=
  ∀ (a : BitVec 26) (P : Word) (s : State), s.pc = P + 4#32 →
    decodeInstr (encJ 0x02#6 a) = some (.j a) ∧
    ∃ t, exec (.j a) s = .next t ∧ WritesPc s t (((P + 4#32) &&& 0xF0000000#32) ||| (a.setWidth 32 <<< 2))

/-- R139: JAL at address `P`: its word; register 31 takes `P + 8`, pc the pseudo-direct target; nothing else changes. -/
def Obligations.JalLinksPlusEight : Prop :=
  ∀ (a : BitVec 26) (P : Word) (s : State), s.pc = P + 4#32 →
    decodeInstr (encJ 0x03#6 a) = some (.jal a) ∧
    ∃ t, exec (.jal a) s = .next t ∧ readReg t 31#5 = P + 8#32 ∧ (∀ q, q ≠ 31#5 → readReg t q = readReg s q) ∧
      t.pc = (((P + 4#32) &&& 0xF0000000#32) ||| (a.setWidth 32 <<< 2)) ∧
      t.hi = s.hi ∧ t.lo = s.lo ∧ SameProgram s t ∧ Reports s t .ok

/-- R140: JR: its word, and pc takes the register as it is, aligned or not. -/
def Obligations.JrCopiesTheRegister : Prop :=
  ∀ (rs rt rd shamt : BitVec 5) (s : State),
    decodeInstr (encR rs rt rd shamt 0x08#6) = some (.jr rs rt rd shamt) ∧
    ∃ t, exec (.jr rs rt rd shamt) s = .next t ∧ WritesPc s t (readReg s rs)

/-- R185, which the spec marks as derived from R139 and R181: a call and its return. Where JAL stands at `pc` and JR of
register 31 at its target, two steps of the machine go to the target and from there to `P + 8`: the word at `P + 4` is not
executed. -/
def Obligations.CallAndReturnResumeAtPlusEight : Prop :=
  ∀ (a : BitVec 26) (target : Word) (s : State),
    target = (((s.pc + 4#32) &&& 0xF0000000#32) ||| (a.setWidth 32 <<< 2)) →
    fetchWord s (s.pc.toNat / 4) = some (encJ 0x03#6 a) → fetchWord s (target.toNat / 4) = some 0x03E00008#32 →
    ∃ t u, step s = .next t ∧ t.pc = target ∧ readReg t 31#5 = s.pc + 8#32 ∧ step t = .next u ∧ u.pc = s.pc + 8#32 ∧
      u.history = .ok :: .ok :: s.history

/-! ### Names and pseudo-instructions (R84, R85) -/

/-- R84, R85: every pseudo-instruction does what its name says. `nop` is the word of zeros and only advances; `move`, `not`
and `neg` copy, invert and negate; `b`, `beqz` and `bnez` at address `P` go to the label always, where the register is
zero, where it is not; `li` has an expansion exactly for -32768 to 65535 and loads the value; `jr $ra` goes to register
31. And assembling the label that a branch's or a jump's field reaches gives the field back. -/
def Obligations.PseudoInstructionsAndLabels : Prop :=
  encode Pseudo.nop = 0x00000000#32 ∧
  (∀ (rd rs : RegIdx) (n : Int) (s : State),
    (∃ t, exec Pseudo.nop s = .next t ∧ OnlyReports s t .ok) ∧
    (∃ t, exec (Pseudo.move rd rs) s = .next t ∧ WritesReg s t rd (readReg s rs)) ∧
    (∃ t, exec (Pseudo.not rd rs) s = .next t ∧ WritesReg s t rd (~~~ readReg s rs)) ∧
    (∃ t, exec (Pseudo.neg rd rs) s = .next t ∧ WritesReg s t rd (- readReg s rs)) ∧
    (∀ i, Pseudo.li rd n = some i → ∃ t, exec i s = .next t ∧ WritesReg s t rd (BitVec.ofInt 32 n)) ∧
    (Pseudo.li rd n = none ↔ n < -32768 ∨ 65535 < n) ∧
    (∃ t, exec Pseudo.ret s = .next t ∧ WritesPc s t (readReg s 31#5))) ∧
  (∀ (rs : RegIdx) (imm : BitVec 16) (P : Word) (s : State), s.pc = P + 4#32 →
    (∃ t, exec (Pseudo.b imm) s = .next t ∧ WritesPc s t (P + 4#32 + (imm.signExtend 32 <<< 2))) ∧
    (∃ t, exec (Pseudo.beqz rs imm) s = .next t ∧
      WritesPc s t (if readReg s rs = 0x00000000#32 then P + 4#32 + (imm.signExtend 32 <<< 2) else P + 4#32)) ∧
    (∃ t, exec (Pseudo.bnez rs imm) s = .next t ∧
      WritesPc s t (if readReg s rs ≠ 0x00000000#32 then P + 4#32 + (imm.signExtend 32 <<< 2) else P + 4#32))) ∧
  (∀ (p : Word) (imm : BitVec 16), branchField p (p + 4#32 + (imm.signExtend 32 <<< 2)) = imm) ∧
  (∀ (s : State) (a : BitVec 26), jumpField (jumpTarget s a) = a)

/-! ### Extension (spec/00_scope.md) -/

/-- R12: the four extensions: the low part is the value, and every bit above is the value's sign bit, or zero; `sext_32`'s
high half is all ones or all zeros. -/
def Obligations.ExtensionsReplicateOrPad : Prop :=
  (∀ v : BitVec 16,
    (sext32 v).extractLsb' 16 16 = (if v.getLsbD 15 = true then 0xFFFF#16 else 0x0000#16) ∧
    (sext32 v).extractLsb' 0 16 = v ∧
    (zext32 v).extractLsb' 16 16 = 0x0000#16 ∧ (zext32 v).extractLsb' 0 16 = v) ∧
  (∀ v : Word,
    (sext64 v).extractLsb' 32 32 = (if v.getLsbD 31 = true then 0xFFFFFFFF#32 else 0x00000000#32) ∧
    (sext64 v).extractLsb' 0 32 = v ∧
    (zext64 v).extractLsb' 32 32 = 0x00000000#32 ∧ (zext64 v).extractLsb' 0 32 = v)
end

