-- ==== Sys2Proof/Laws/Arith.lean ====
section
/-! SUPPORT. The readings of patterns agree with the library's, and the exact products of the multiply instructions are
the 64-bit products of the widened operands (spec/00_scope.md R11, R12; spec/42_muldiv_move.md R121, R122). -/

namespace Sys2Proof

/-- The signed value of R11 is the library's. -/
theorem sVal_eq_toInt (v : Word) : sVal v = v.toInt := by
  have h := v.isLt
  unfold sVal uVal
  rw [BitVec.toInt_eq_msb_cond, BitVec.msb_eq_getLsbD_last]
  simp

/-- MULT in the words of the source: both operands widened to 64 bits by sign, multiplied in 64 bits (R12, R121). -/
theorem bits64_signed_product (a b : Word) : bits64 (sVal a * sVal b) = sext64 a * sext64 b := by
  rw [sVal_eq_toInt, sVal_eq_toInt]
  exact BitVec.ofInt_mul _ _

/-- MULTU in the words of the source: both operands widened to 64 bits by zeros, multiplied in 64 bits (R12, R122). -/
theorem bits64_unsigned_product (a b : Word) : bits64 (uVal a * uVal b) = zext64 a * zext64 b := by
  unfold bits64 uVal zext64
  simp only [BitVec.ofInt_mul, BitVec.ofInt_natCast, BitVec.ofNat_toNat]

end Sys2Proof
end

