-- ==== Sys2Proof/Laws/Decode.lean ====
section
/-! SUPPORT. The code enumerations and their lookups agree, and each field of an assembled word reads back. -/

namespace Sys2Proof

/-! ### Enumerations -/

@[simp] theorem Opcode.ofCode_code (o : Opcode) : Opcode.ofCode o.code = some o := by cases o <;> rfl

theorem Opcode.code_of_ofCode {c : Code} {o : Opcode} (h : Opcode.ofCode c = some o) : o.code = c := by
  have := List.find?_some h
  simpa using this

/-- A funct that is no extra one is found under its code, whatever the extra set is. -/
theorem Funct.ofCodeWith_code (extra : List Code) (f : Funct) (hf : f ∈ Funct.members) :
    Funct.ofCodeWith extra f.code = some f := by
  cases f with
  | extra c => simp [Funct.members] at hf
  | _ => rfl

theorem Funct.code_of_ofCodeWith {extra : List Code} {c : Code} {f : Funct} (h : Funct.ofCodeWith extra c = some f) :
    f.code = c := by
  unfold Funct.ofCodeWith at h
  split at h
  · next g hg =>
    have := List.find?_some hg
    simp only [Option.some.injEq] at h
    subst h
    simpa using this
  · split at h
    · simp only [Option.some.injEq] at h; subst h; rfl
    · simp at h

/-! ### Fields of an assembled word -/

theorem encR_eq_append (rs rt rd shamt : BitVec 5) (f : Code) :
    encR rs rt rd shamt f = (0#6 ++ rs ++ rt ++ rd ++ shamt ++ f).cast (by decide) := by
  apply BitVec.eq_of_getLsbD_eq
  intro i hi
  simp only [encR, BitVec.getLsbD_or, BitVec.getLsbD_shiftLeft, BitVec.getLsbD_setWidth, BitVec.getLsbD_cast,
    BitVec.getLsbD_append]
  interval_cases i <;> simp

theorem encI_eq_append (op : Code) (rs rt : BitVec 5) (imm : BitVec 16) :
    encI op rs rt imm = (op ++ rs ++ rt ++ imm).cast (by decide) := by
  apply BitVec.eq_of_getLsbD_eq
  intro i hi
  simp only [encI, BitVec.getLsbD_or, BitVec.getLsbD_shiftLeft, BitVec.getLsbD_setWidth, BitVec.getLsbD_cast,
    BitVec.getLsbD_append]
  interval_cases i <;> simp

theorem encJ_eq_append (op : Code) (a : BitVec 26) : encJ op a = (op ++ a).cast (by decide) := by
  apply BitVec.eq_of_getLsbD_eq
  intro i hi
  simp only [encJ, BitVec.getLsbD_or, BitVec.getLsbD_shiftLeft, BitVec.getLsbD_setWidth, BitVec.getLsbD_cast,
    BitVec.getLsbD_append]
  interval_cases i <;> simp

/-- Every field of an R word reads back. -/
theorem fields_encR (rs rt rd shamt : BitVec 5) (f : Code) :
    opcodeField (encR rs rt rd shamt f) = 0#6 ∧ rsField (encR rs rt rd shamt f) = rs ∧
    rtField (encR rs rt rd shamt f) = rt ∧ rdField (encR rs rt rd shamt f) = rd ∧
    shamtField (encR rs rt rd shamt f) = shamt ∧ functField (encR rs rt rd shamt f) = f := by
  rw [encR_eq_append]
  refine ⟨?_, ?_, ?_, ?_, ?_, ?_⟩ <;>
  · apply BitVec.eq_of_getLsbD_eq
    intro i hi
    simp only [opcodeField, rsField, rtField, rdField, shamtField, functField, BitVec.getLsbD_extractLsb',
      BitVec.getLsbD_cast, BitVec.getLsbD_append]
    interval_cases i <;> simp

/-- Every field of an I word reads back. -/
theorem fields_encI (op : Code) (rs rt : BitVec 5) (imm : BitVec 16) :
    opcodeField (encI op rs rt imm) = op ∧ rsField (encI op rs rt imm) = rs ∧
    rtField (encI op rs rt imm) = rt ∧ immediateField (encI op rs rt imm) = imm := by
  rw [encI_eq_append]
  refine ⟨?_, ?_, ?_, ?_⟩ <;>
  · apply BitVec.eq_of_getLsbD_eq
    intro i hi
    simp only [opcodeField, rsField, rtField, immediateField, BitVec.getLsbD_extractLsb',
      BitVec.getLsbD_cast, BitVec.getLsbD_append]
    interval_cases i <;> simp

/-- Every field of a J word reads back. -/
theorem fields_encJ (op : Code) (a : BitVec 26) :
    opcodeField (encJ op a) = op ∧ addressField (encJ op a) = a := by
  rw [encJ_eq_append]
  refine ⟨?_, ?_⟩ <;>
  · apply BitVec.eq_of_getLsbD_eq
    intro i hi
    simp only [opcodeField, addressField, BitVec.getLsbD_extractLsb', BitVec.getLsbD_cast, BitVec.getLsbD_append]
    interval_cases i <;> simp

/-- The record of an instruction selects it back (the dispatch tables' lookup, spec/40_dispatch.md R99). -/
@[simp] theorem toInstr_toRecord (n : Instr) : n.toRecord.toInstr = some n := by cases n <;> rfl

/-! ### What the decoder can answer -/

/-- A decoded word: which clause of the decoder gave the record, and from which codes and fields. -/
theorem decode_ok_cases {w : Word} {d : Record} (h : decode w = .ok d) :
    (∃ f, f ∈ Funct.members ∧ opcodeField w = 0#6 ∧ functField w = f.code ∧
      d = .r (rsField w) (rtField w) (rdField w) (shamtField w) f) ∨
    (∃ o : Opcode, o.format = .J ∧ opcodeField w = o.code ∧ d = .j o (addressField w)) ∨
    (∃ o : Opcode, o.format = .I ∧ opcodeField w = o.code ∧
      d = .i o (rsField w) (rtField w) (immediateField w)) := by
  unfold decode decodeWith at h
  split at h
  · exact absurd h (by simp)
  · next o ho =>
    have hc := Opcode.code_of_ofCode ho
    split at h
    · next hf =>
      split at h
      · next f hff =>
        refine .inl ⟨f, ?_, ?_, (Funct.code_of_ofCodeWith hff).symm, (Except.ok.inj h).symm⟩
        · unfold Funct.ofCodeWith at hff
          split at hff
          · next g hg => exact (Option.some.inj hff) ▸ List.mem_of_find?_eq_some hg
          · simp [Config.extraRecognizedFuncts] at hff
        · rw [← hc]; cases o <;> first | rfl | exact absurd hf (by decide)
      · exact absurd h (by simp)
    · next hf => exact .inr (.inl ⟨o, hf, hc.symm, (Except.ok.inj h).symm⟩)
    · next hf => exact .inr (.inr ⟨o, hf, hc.symm, (Except.ok.inj h).symm⟩)

/-- A rejected word: its opcode is in no map, or its opcode is zero and its funct is in no map. -/
theorem decode_error_cases {w : Word} {e : DecodeFailure} (h : decode w = .error e) :
    (Opcode.ofCode (opcodeField w) = none ∧ e = .badOpcode (opcodeField w)) ∨
    (opcodeField w = 0#6 ∧ Funct.ofCodeWith Config.extraRecognizedFuncts (functField w) = none ∧
      e = .badFunct (functField w)) := by
  unfold decode decodeWith at h
  split at h
  · next ho => exact .inl ⟨ho, (Except.error.inj h).symm⟩
  · next o ho =>
    have hc := Opcode.code_of_ofCode ho
    split at h
    · next hf =>
      split at h
      · exact absurd h (by simp)
      · next hff =>
        refine .inr ⟨?_, hff, (Except.error.inj h).symm⟩
        rw [← hc]; cases o <;> first | rfl | exact absurd hf (by decide)
    · exact absurd h (by simp)
    · exact absurd h (by simp)

end Sys2Proof
end

