-- ==== Sys2Proof/Laws/State.lean ====
section
/-! SUPPORT. One lemma per field per update of the state, so that no proof unfolds a record update. -/

namespace Sys2Proof.Machine

@[simp] theorem setHiLo_x (s : State) (h l : Word) : (setHiLo s h l).x = s.x := rfl
@[simp] theorem setHiLo_hi (s : State) (h l : Word) : (setHiLo s h l).hi = h := rfl
@[simp] theorem setHiLo_lo (s : State) (h l : Word) : (setHiLo s h l).lo = l := rfl
@[simp] theorem setHiLo_pc (s : State) (h l : Word) : (setHiLo s h l).pc = s.pc := rfl
@[simp] theorem setHiLo_program (s : State) (h l : Word) : (setHiLo s h l).program = s.program := rfl
@[simp] theorem setHiLo_history (s : State) (h l : Word) : (setHiLo s h l).history = s.history := rfl

@[simp] theorem setPc_x (s : State) (p : Word) : (setPc s p).x = s.x := rfl
@[simp] theorem setPc_hi (s : State) (p : Word) : (setPc s p).hi = s.hi := rfl
@[simp] theorem setPc_lo (s : State) (p : Word) : (setPc s p).lo = s.lo := rfl
@[simp] theorem setPc_pc (s : State) (p : Word) : (setPc s p).pc = p := rfl
@[simp] theorem setPc_program (s : State) (p : Word) : (setPc s p).program = s.program := rfl
@[simp] theorem setPc_history (s : State) (p : Word) : (setPc s p).history = s.history := rfl

@[simp] theorem advancePc_x (s : State) : (advancePc s).x = s.x := rfl
@[simp] theorem advancePc_hi (s : State) : (advancePc s).hi = s.hi := rfl
@[simp] theorem advancePc_lo (s : State) : (advancePc s).lo = s.lo := rfl
@[simp] theorem advancePc_pc (s : State) : (advancePc s).pc = s.pc + 4#32 := rfl
@[simp] theorem advancePc_program (s : State) : (advancePc s).program = s.program := rfl
@[simp] theorem advancePc_history (s : State) : (advancePc s).history = s.history := rfl

@[simp] theorem raise_x (s : State) (r : Report) : (raise s r).x = s.x := rfl
@[simp] theorem raise_hi (s : State) (r : Report) : (raise s r).hi = s.hi := rfl
@[simp] theorem raise_lo (s : State) (r : Report) : (raise s r).lo = s.lo := rfl
@[simp] theorem raise_pc (s : State) (r : Report) : (raise s r).pc = s.pc := rfl
@[simp] theorem raise_program (s : State) (r : Report) : (raise s r).program = s.program := rfl
@[simp] theorem raise_history (s : State) (r : Report) : (raise s r).history = r :: s.history := rfl

@[simp] theorem withProgram_x (s : State) (p : Memory) : (withProgram s p).x = s.x := rfl
@[simp] theorem withProgram_hi (s : State) (p : Memory) : (withProgram s p).hi = s.hi := rfl
@[simp] theorem withProgram_lo (s : State) (p : Memory) : (withProgram s p).lo = s.lo := rfl
@[simp] theorem withProgram_pc (s : State) (p : Memory) : (withProgram s p).pc = s.pc := rfl
@[simp] theorem withProgram_program (s : State) (p : Memory) : (withProgram s p).program = p := rfl
@[simp] theorem withProgram_history (s : State) (p : Memory) : (withProgram s p).history = s.history := rfl

@[simp] theorem placeAtPc_x (s : State) (w : Word) : (placeAtPc s w).x = s.x := rfl
@[simp] theorem placeAtPc_hi (s : State) (w : Word) : (placeAtPc s w).hi = s.hi := rfl
@[simp] theorem placeAtPc_lo (s : State) (w : Word) : (placeAtPc s w).lo = s.lo := rfl
@[simp] theorem placeAtPc_pc (s : State) (w : Word) : (placeAtPc s w).pc = s.pc := rfl
@[simp] theorem placeAtPc_program (s : State) (w : Word) : (placeAtPc s w).program = Memory.place s.program (fetchIndex s).toNat w := rfl
@[simp] theorem placeAtPc_history (s : State) (w : Word) : (placeAtPc s w).history = s.history := rfl

@[simp] theorem applyReset_x (s : State) : (applyReset s).x = Vector.replicate 32 0#32 := rfl
@[simp] theorem applyReset_hi (s : State) : (applyReset s).hi = 0#32 := rfl
@[simp] theorem applyReset_lo (s : State) : (applyReset s).lo = 0#32 := rfl
@[simp] theorem applyReset_pc (s : State) : (applyReset s).pc = 0#32 := rfl
@[simp] theorem applyReset_program (s : State) : (applyReset s).program = s.program := rfl
@[simp] theorem applyReset_history (s : State) : (applyReset s).history = [] := rfl

/-! A register write changes the register file alone. -/

@[simp] theorem writeRegWith_hi (b : Bool) (s : State) (r : RegIdx) (v : Word) : (writeRegWith b s r v).hi = s.hi := by
  unfold writeRegWith; split <;> rfl
@[simp] theorem writeReg_hi (s : State) (r : RegIdx) (v : Word) : (writeReg s r v).hi = s.hi := writeRegWith_hi _ s r v
@[simp] theorem writeRegWith_lo (b : Bool) (s : State) (r : RegIdx) (v : Word) : (writeRegWith b s r v).lo = s.lo := by
  unfold writeRegWith; split <;> rfl
@[simp] theorem writeReg_lo (s : State) (r : RegIdx) (v : Word) : (writeReg s r v).lo = s.lo := writeRegWith_lo _ s r v
@[simp] theorem writeRegWith_pc (b : Bool) (s : State) (r : RegIdx) (v : Word) : (writeRegWith b s r v).pc = s.pc := by
  unfold writeRegWith; split <;> rfl
@[simp] theorem writeReg_pc (s : State) (r : RegIdx) (v : Word) : (writeReg s r v).pc = s.pc := writeRegWith_pc _ s r v
@[simp] theorem writeRegWith_program (b : Bool) (s : State) (r : RegIdx) (v : Word) : (writeRegWith b s r v).program = s.program := by
  unfold writeRegWith; split <;> rfl
@[simp] theorem writeReg_program (s : State) (r : RegIdx) (v : Word) : (writeReg s r v).program = s.program := writeRegWith_program _ s r v
@[simp] theorem writeRegWith_history (b : Bool) (s : State) (r : RegIdx) (v : Word) : (writeRegWith b s r v).history = s.history := by
  unfold writeRegWith; split <;> rfl
@[simp] theorem writeReg_history (s : State) (r : RegIdx) (v : Word) : (writeReg s r v).history = s.history := writeRegWith_history _ s r v

end Sys2Proof.Machine
end

