-- ==== Sys2Proof/Laws/Memory.lean ====
section
/-! SUPPORT. The program array keeps its form under every operation on it, and a fetch reads what was placed. -/

namespace Sys2Proof.Machine

theorem reset_program_wf : Memory.wf State.reset.program = true := by decide

theorem Memory.length_place (m : Memory) (k : Nat) (w : Word) :
    (Memory.place m k w).length = max m.length (k + 1) := by
  unfold Memory.place
  split
  · rw [List.length_set]; omega
  · simp only [List.length_append, List.length_replicate, List.length_singleton]; omega

/-- Placing a word at a 30-bit index keeps the form. -/
theorem Memory.place_wf (m : Memory) (k : BitVec 30) (w : Word) (h : Memory.wf m = true) :
    Memory.wf (Memory.place m k.toNat w) = true := by
  have hk := k.isLt
  simp only [Memory.wf, decide_eq_true_eq] at *
  rw [Memory.length_place]; omega

/-- The word placed is the word read. -/
theorem Memory.getElem?_place_self (m : Memory) (k : Nat) (w : Word) : (Memory.place m k w)[k]? = some w := by
  unfold Memory.place
  split
  · next h => simp [h]
  · rw [List.append_assoc, List.getElem?_append_right (by omega), List.getElem?_append_right (by simp)]
    simp

/-- Placing a word leaves every other word of the array as it was. -/
theorem Memory.getElem?_place_of_lt (m : Memory) (k j : Nat) (w : Word) (hj : j < m.length) (hne : j ≠ k) :
    (Memory.place m k w)[j]? = m[j]? := by
  unfold Memory.place
  split
  · rw [List.getElem?_set_ne (Ne.symm hne)]
  · rw [List.append_assoc, List.getElem?_append_left hj]

theorem placeAtPc_wf (s : State) (w : Word) (h : Memory.wf s.program = true) :
    Memory.wf (placeAtPc s w).program = true := Memory.place_wf s.program (fetchIndex s) w h

theorem applyReset_wf (s : State) (h : Memory.wf s.program = true) :
    Memory.wf (applyReset s).program = true := h

end Sys2Proof.Machine
end

