-- ==== Sys2Proof/Laws/Ops.lean ====
section
/-! SUPPORT. One lemma per shared operation that says all it can do: register reads after writes, and what each result
of an instruction changes and leaves. -/

namespace Sys2Proof.Machine

/-- Register 0 reads zero (spec/10_state.md R21). -/
@[simp] theorem readReg_zero (s : State) : readReg s 0#5 = 0#32 := rfl

/-- A register read depends on the register file alone. -/
theorem readReg_congr (s t : State) (h : t.x = s.x) (q : RegIdx) : readReg t q = readReg s q := by
  unfold readReg readRegWith; simp only [h]

@[simp] theorem readReg_setHiLo (s : State) (h l : Word) (q : RegIdx) : readReg (setHiLo s h l) q = readReg s q :=
  readReg_congr _ _ rfl q
@[simp] theorem readReg_setPc (s : State) (p : Word) (q : RegIdx) : readReg (setPc s p) q = readReg s q :=
  readReg_congr _ _ rfl q
@[simp] theorem readReg_advancePc (s : State) (q : RegIdx) : readReg (advancePc s) q = readReg s q :=
  readReg_congr _ _ rfl q
@[simp] theorem readReg_raise (s : State) (r : Report) (q : RegIdx) : readReg (raise s r) q = readReg s q :=
  readReg_congr _ _ rfl q
@[simp] theorem readReg_withProgram (s : State) (p : Memory) (q : RegIdx) :
    readReg (withProgram s p) q = readReg s q := readReg_congr _ _ rfl q
@[simp] theorem readReg_placeAtPc (s : State) (w : Word) (q : RegIdx) : readReg (placeAtPc s w) q = readReg s q :=
  readReg_congr _ _ rfl q

/-- A read after a write: the value written at the register written, unless it is register 0; otherwise the old value. -/
theorem readReg_writeReg (s : State) (r q : RegIdx) (v : Word) :
    readReg (writeReg s r v) q = if q = r ∧ q ≠ 0#5 then v else readReg s q := by
  unfold readReg writeReg readRegWith writeRegWith
  simp only [Config.r0Hardwired, Bool.true_and, beq_iff_eq]
  by_cases hq : q = 0#5
  · simp [hq]
  · by_cases hr : r = 0#5
    · simp [hq, hr]
    · by_cases hqr : q = r
      · subst hqr; simp [hq]
      · have : r.toNat ≠ q.toNat := fun h => hqr (BitVec.eq_of_toNat_eq h.symm)
        simp [hq, hr, hqr, Vector.getElem_set_ne, this]

/-- The storage of register 0 after a write is what it was. -/
theorem writeReg_x_zero (s : State) (r : RegIdx) (v : Word) : (writeReg s r v).x[0] = s.x[0] := by
  unfold writeReg writeRegWith
  split
  · rfl
  · next h =>
    have h0 : r.toNat ≠ 0 := fun h0 => h (by
      simp only [Config.r0Hardwired, Bool.true_and, beq_iff_eq]; exact BitVec.eq_of_toNat_eq h0)
    exact Vector.getElem_set_ne (hi := r.isLt) (by decide) h0

/-- States with the same program array are the same to a fetch. -/
theorem sameProgram_of_eq {s t : State} (h : t.program = s.program) : SameProgram s t := by
  unfold SameProgram fetchWord programLength; rw [h]; exact ⟨fun _ => rfl, rfl⟩

theorem reports_of_eq {s t : State} {r : Report} (h : t.history = r :: s.history) : Reports s t r :=
  ⟨h, by simp [report, h]⟩

/-! ### What each result changes and leaves -/

theorem regResult_spec (s : State) (r : RegIdx) (v : Word) :
    ∃ t, regResult s r v = .next t ∧ WritesReg s t r v := by
  refine ⟨_, rfl, fun q => ?_, ?_, ?_, ?_, sameProgram_of_eq ?_, reports_of_eq ?_⟩
  · simp [readReg_writeReg]
  all_goals simp

theorem hiLoResult_spec (s : State) (h l : Word) :
    ∃ t, hiLoResult s h l = .next t ∧ WritesHiLo s t h l :=
  ⟨_, rfl, rfl, rfl, fun _ => rfl, rfl, sameProgram_of_eq rfl, reports_of_eq rfl⟩

theorem jumpResult_spec (s : State) (p : Word) : ∃ t, jumpResult s p = .next t ∧ WritesPc s t p :=
  ⟨_, rfl, rfl, fun _ => rfl, rfl, rfl, sameProgram_of_eq rfl, reports_of_eq rfl⟩

theorem reportOnly_spec (s : State) (r : Report) : ∃ t, reportOnly s r = .next t ∧ OnlyReports s t r :=
  ⟨_, rfl, fun _ => rfl, rfl, rfl, rfl, sameProgram_of_eq rfl, reports_of_eq rfl⟩

theorem linkResult_spec (s : State) (p link : Word) :
    ∃ t, linkResult s p link = .next t ∧ t.pc = p ∧
      (∀ q, readReg t q = if q = 31#5 then link else readReg s q) ∧
      t.hi = s.hi ∧ t.lo = s.lo ∧ SameProgram s t ∧ Reports s t .ok := by
  refine ⟨_, rfl, ?_, fun q => ?_, ?_, ?_, sameProgram_of_eq ?_, reports_of_eq ?_⟩
  · simp
  · rw [readReg_raise, readReg_writeReg]
    by_cases h : q = 31#5
    · subst h; simp [Config.linkRegister]
    · simp [Config.linkRegister, h]
  all_goals simp

/-- An instruction answers one of five results; every invariant of a step follows from this case split. -/
theorem exec_cases (i : Instr) (s : State) :
    (∃ r v, exec i s = regResult s r v) ∨ (∃ h l, exec i s = hiLoResult s h l) ∨
    (∃ p, exec i s = jumpResult s p) ∨ (∃ p l, exec i s = linkResult s p l) ∨
    (∃ r, exec i s = reportOnly s r) := by
  have branch (b : Bool) (imm : BitVec 16) :
      (∃ p, branchResult s b imm = jumpResult s p) ∨ (∃ r, branchResult s b imm = reportOnly s r) := by
    cases b
    · exact .inr ⟨_, rfl⟩
    · exact .inl ⟨_, rfl⟩
  have division (o : Option (Word × Word)) : ∀ {P Q R : Prop},
      P ∨ (∃ h l, divisionResult s o = hiLoResult s h l) ∨ Q ∨ R ∨ (∃ r, divisionResult s o = reportOnly s r) := by
    intro P Q R
    cases o with
    | none => exact .inr (.inr (.inr (.inr ⟨_, rfl⟩)))
    | some p => exact .inr (.inl ⟨p.1, p.2, rfl⟩)
  cases i
  case mult => exact .inr (.inl ⟨_, _, rfl⟩)
  case multu => exact .inr (.inl ⟨_, _, rfl⟩)
  case div => exact division _
  case divu => exact division _
  case jr => exact .inr (.inr (.inl ⟨_, rfl⟩))
  case j => exact .inr (.inr (.inl ⟨_, rfl⟩))
  case jal => exact .inr (.inr (.inr (.inl ⟨_, _, rfl⟩)))
  case beq rs rt imm =>
    rcases branch (readReg s rs == readReg s rt) imm with h | h
    · exact .inr (.inr (.inl h))
    · exact .inr (.inr (.inr (.inr h)))
  case bne rs rt imm =>
    rcases branch (readReg s rs != readReg s rt) imm with h | h
    · exact .inr (.inr (.inl h))
    · exact .inr (.inr (.inr (.inr h)))
  case lui => exact .inr (.inr (.inr (.inr ⟨_, rfl⟩)))
  case lw => exact .inr (.inr (.inr (.inr ⟨_, rfl⟩)))
  case lbu => exact .inr (.inr (.inr (.inr ⟨_, rfl⟩)))
  case lhu => exact .inr (.inr (.inr (.inr ⟨_, rfl⟩)))
  case sb => exact .inr (.inr (.inr (.inr ⟨_, rfl⟩)))
  case sh => exact .inr (.inr (.inr (.inr ⟨_, rfl⟩)))
  case sw => exact .inr (.inr (.inr (.inr ⟨_, rfl⟩)))
  case ll => exact .inr (.inr (.inr (.inr ⟨_, rfl⟩)))
  case sc => exact .inr (.inr (.inr (.inr ⟨_, rfl⟩)))
  all_goals exact .inl ⟨_, _, rfl⟩

end Sys2Proof.Machine
end

