-- ==== Sys2Proof/Laws/PerInstr.lean ====
section
/-! SUPPORT. For every instruction: the bits of its word that spec/opcode_table.json fixes (the row's mask) have the values
the row gives them (the row's match), whatever its operands. The masks and matches are the table's, written out row by
row, apart from the code tables the encoder uses. -/

namespace Sys2Proof.Laws.Encoding

/-- The row's mask: the opcode, and in R-format the funct too. -/
def tableMask (n : Instr) : Word :=
  match n with
  | .sll _ _ _ _ => 0xFC00003F#32
  | .srl _ _ _ _ => 0xFC00003F#32
  | .jr _ _ _ _ => 0xFC00003F#32
  | .mfhi _ _ _ _ => 0xFC00003F#32
  | .mflo _ _ _ _ => 0xFC00003F#32
  | .mult _ _ _ _ => 0xFC00003F#32
  | .multu _ _ _ _ => 0xFC00003F#32
  | .div _ _ _ _ => 0xFC00003F#32
  | .divu _ _ _ _ => 0xFC00003F#32
  | .add _ _ _ _ => 0xFC00003F#32
  | .addu _ _ _ _ => 0xFC00003F#32
  | .sub _ _ _ _ => 0xFC00003F#32
  | .subu _ _ _ _ => 0xFC00003F#32
  | .and _ _ _ _ => 0xFC00003F#32
  | .or _ _ _ _ => 0xFC00003F#32
  | .nor _ _ _ _ => 0xFC00003F#32
  | .slt _ _ _ _ => 0xFC00003F#32
  | .sltu _ _ _ _ => 0xFC00003F#32
  | .beq _ _ _ => 0xFC000000#32
  | .bne _ _ _ => 0xFC000000#32
  | .addi _ _ _ => 0xFC000000#32
  | .addiu _ _ _ => 0xFC000000#32
  | .slti _ _ _ => 0xFC000000#32
  | .sltiu _ _ _ => 0xFC000000#32
  | .andi _ _ _ => 0xFC000000#32
  | .ori _ _ _ => 0xFC000000#32
  | .lui _ _ _ => 0xFC000000#32
  | .lw _ _ _ => 0xFC000000#32
  | .lbu _ _ _ => 0xFC000000#32
  | .lhu _ _ _ => 0xFC000000#32
  | .sb _ _ _ => 0xFC000000#32
  | .sh _ _ _ => 0xFC000000#32
  | .sw _ _ _ => 0xFC000000#32
  | .ll _ _ _ => 0xFC000000#32
  | .sc _ _ _ => 0xFC000000#32
  | .j _ => 0xFC000000#32
  | .jal _ => 0xFC000000#32

/-- The row's match. -/
def tableMatch (n : Instr) : Word :=
  match n with
  | .sll _ _ _ _ => 0x00000000#32
  | .srl _ _ _ _ => 0x00000002#32
  | .jr _ _ _ _ => 0x00000008#32
  | .mfhi _ _ _ _ => 0x00000010#32
  | .mflo _ _ _ _ => 0x00000012#32
  | .mult _ _ _ _ => 0x00000018#32
  | .multu _ _ _ _ => 0x00000019#32
  | .div _ _ _ _ => 0x0000001A#32
  | .divu _ _ _ _ => 0x0000001B#32
  | .add _ _ _ _ => 0x00000020#32
  | .addu _ _ _ _ => 0x00000021#32
  | .sub _ _ _ _ => 0x00000022#32
  | .subu _ _ _ _ => 0x00000023#32
  | .and _ _ _ _ => 0x00000024#32
  | .or _ _ _ _ => 0x00000025#32
  | .nor _ _ _ _ => 0x00000027#32
  | .slt _ _ _ _ => 0x0000002A#32
  | .sltu _ _ _ _ => 0x0000002B#32
  | .beq _ _ _ => 0x10000000#32
  | .bne _ _ _ => 0x14000000#32
  | .addi _ _ _ => 0x20000000#32
  | .addiu _ _ _ => 0x24000000#32
  | .slti _ _ _ => 0x28000000#32
  | .sltiu _ _ _ => 0x2C000000#32
  | .andi _ _ _ => 0x30000000#32
  | .ori _ _ _ => 0x34000000#32
  | .lui _ _ _ => 0x3C000000#32
  | .lw _ _ _ => 0x8C000000#32
  | .lbu _ _ _ => 0x90000000#32
  | .lhu _ _ _ => 0x94000000#32
  | .sb _ _ _ => 0xA0000000#32
  | .sh _ _ _ => 0xA4000000#32
  | .sw _ _ _ => 0xAC000000#32
  | .ll _ _ _ => 0xC0000000#32
  | .sc _ _ _ => 0xE0000000#32
  | .j _ => 0x08000000#32
  | .jal _ => 0x0C000000#32

/-- The fixed bits of the instruction's word are the table's. -/
def Statement (n : Instr) : Prop := encode n &&& tableMask n = tableMatch n

theorem encR_and_mask (rs rt rd shamt : BitVec 5) (f : Code) :
    encR rs rt rd shamt f &&& 0xFC00003F#32 = f.setWidth 32 := by
  apply BitVec.eq_of_getLsbD_eq
  intro i hi
  simp only [encR, BitVec.getLsbD_and, BitVec.getLsbD_or, BitVec.getLsbD_shiftLeft, BitVec.getLsbD_setWidth]
  interval_cases i <;> simp

theorem encI_and_mask (op : Code) (rs rt : BitVec 5) (imm : BitVec 16) :
    encI op rs rt imm &&& 0xFC000000#32 = op.setWidth 32 <<< 26 := by
  apply BitVec.eq_of_getLsbD_eq
  intro i hi
  simp only [encI, BitVec.getLsbD_and, BitVec.getLsbD_or, BitVec.getLsbD_shiftLeft, BitVec.getLsbD_setWidth]
  interval_cases i <;> simp

theorem encJ_and_mask (op : Code) (a : BitVec 26) : encJ op a &&& 0xFC000000#32 = op.setWidth 32 <<< 26 := by
  apply BitVec.eq_of_getLsbD_eq
  intro i hi
  simp only [encJ, BitVec.getLsbD_and, BitVec.getLsbD_or, BitVec.getLsbD_shiftLeft, BitVec.getLsbD_setWidth]
  interval_cases i <;> simp

theorem sll (rs rt rd shamt : BitVec 5) : Statement (.sll rs rt rd shamt) :=
  (encR_and_mask rs rt rd shamt _).trans rfl
theorem srl (rs rt rd shamt : BitVec 5) : Statement (.srl rs rt rd shamt) :=
  (encR_and_mask rs rt rd shamt _).trans rfl
theorem jr (rs rt rd shamt : BitVec 5) : Statement (.jr rs rt rd shamt) :=
  (encR_and_mask rs rt rd shamt _).trans rfl
theorem mfhi (rs rt rd shamt : BitVec 5) : Statement (.mfhi rs rt rd shamt) :=
  (encR_and_mask rs rt rd shamt _).trans rfl
theorem mflo (rs rt rd shamt : BitVec 5) : Statement (.mflo rs rt rd shamt) :=
  (encR_and_mask rs rt rd shamt _).trans rfl
theorem mult (rs rt rd shamt : BitVec 5) : Statement (.mult rs rt rd shamt) :=
  (encR_and_mask rs rt rd shamt _).trans rfl
theorem multu (rs rt rd shamt : BitVec 5) : Statement (.multu rs rt rd shamt) :=
  (encR_and_mask rs rt rd shamt _).trans rfl
theorem div (rs rt rd shamt : BitVec 5) : Statement (.div rs rt rd shamt) :=
  (encR_and_mask rs rt rd shamt _).trans rfl
theorem divu (rs rt rd shamt : BitVec 5) : Statement (.divu rs rt rd shamt) :=
  (encR_and_mask rs rt rd shamt _).trans rfl
theorem add (rs rt rd shamt : BitVec 5) : Statement (.add rs rt rd shamt) :=
  (encR_and_mask rs rt rd shamt _).trans rfl
theorem addu (rs rt rd shamt : BitVec 5) : Statement (.addu rs rt rd shamt) :=
  (encR_and_mask rs rt rd shamt _).trans rfl
theorem sub (rs rt rd shamt : BitVec 5) : Statement (.sub rs rt rd shamt) :=
  (encR_and_mask rs rt rd shamt _).trans rfl
theorem subu (rs rt rd shamt : BitVec 5) : Statement (.subu rs rt rd shamt) :=
  (encR_and_mask rs rt rd shamt _).trans rfl
theorem and (rs rt rd shamt : BitVec 5) : Statement (.and rs rt rd shamt) :=
  (encR_and_mask rs rt rd shamt _).trans rfl
theorem or (rs rt rd shamt : BitVec 5) : Statement (.or rs rt rd shamt) :=
  (encR_and_mask rs rt rd shamt _).trans rfl
theorem nor (rs rt rd shamt : BitVec 5) : Statement (.nor rs rt rd shamt) :=
  (encR_and_mask rs rt rd shamt _).trans rfl
theorem slt (rs rt rd shamt : BitVec 5) : Statement (.slt rs rt rd shamt) :=
  (encR_and_mask rs rt rd shamt _).trans rfl
theorem sltu (rs rt rd shamt : BitVec 5) : Statement (.sltu rs rt rd shamt) :=
  (encR_and_mask rs rt rd shamt _).trans rfl
theorem beq (rs rt : BitVec 5) (imm : BitVec 16) : Statement (.beq rs rt imm) :=
  (encI_and_mask _ rs rt imm).trans rfl
theorem bne (rs rt : BitVec 5) (imm : BitVec 16) : Statement (.bne rs rt imm) :=
  (encI_and_mask _ rs rt imm).trans rfl
theorem addi (rs rt : BitVec 5) (imm : BitVec 16) : Statement (.addi rs rt imm) :=
  (encI_and_mask _ rs rt imm).trans rfl
theorem addiu (rs rt : BitVec 5) (imm : BitVec 16) : Statement (.addiu rs rt imm) :=
  (encI_and_mask _ rs rt imm).trans rfl
theorem slti (rs rt : BitVec 5) (imm : BitVec 16) : Statement (.slti rs rt imm) :=
  (encI_and_mask _ rs rt imm).trans rfl
theorem sltiu (rs rt : BitVec 5) (imm : BitVec 16) : Statement (.sltiu rs rt imm) :=
  (encI_and_mask _ rs rt imm).trans rfl
theorem andi (rs rt : BitVec 5) (imm : BitVec 16) : Statement (.andi rs rt imm) :=
  (encI_and_mask _ rs rt imm).trans rfl
theorem ori (rs rt : BitVec 5) (imm : BitVec 16) : Statement (.ori rs rt imm) :=
  (encI_and_mask _ rs rt imm).trans rfl
theorem lui (rs rt : BitVec 5) (imm : BitVec 16) : Statement (.lui rs rt imm) :=
  (encI_and_mask _ rs rt imm).trans rfl
theorem lw (rs rt : BitVec 5) (imm : BitVec 16) : Statement (.lw rs rt imm) :=
  (encI_and_mask _ rs rt imm).trans rfl
theorem lbu (rs rt : BitVec 5) (imm : BitVec 16) : Statement (.lbu rs rt imm) :=
  (encI_and_mask _ rs rt imm).trans rfl
theorem lhu (rs rt : BitVec 5) (imm : BitVec 16) : Statement (.lhu rs rt imm) :=
  (encI_and_mask _ rs rt imm).trans rfl
theorem sb (rs rt : BitVec 5) (imm : BitVec 16) : Statement (.sb rs rt imm) :=
  (encI_and_mask _ rs rt imm).trans rfl
theorem sh (rs rt : BitVec 5) (imm : BitVec 16) : Statement (.sh rs rt imm) :=
  (encI_and_mask _ rs rt imm).trans rfl
theorem sw (rs rt : BitVec 5) (imm : BitVec 16) : Statement (.sw rs rt imm) :=
  (encI_and_mask _ rs rt imm).trans rfl
theorem ll (rs rt : BitVec 5) (imm : BitVec 16) : Statement (.ll rs rt imm) :=
  (encI_and_mask _ rs rt imm).trans rfl
theorem sc (rs rt : BitVec 5) (imm : BitVec 16) : Statement (.sc rs rt imm) :=
  (encI_and_mask _ rs rt imm).trans rfl
theorem j (address : BitVec 26) : Statement (.j address) :=
  (encJ_and_mask _ address).trans rfl
theorem jal (address : BitVec 26) : Statement (.jal address) :=
  (encJ_and_mask _ address).trans rfl

end Sys2Proof.Laws.Encoding
end

