-- ==== Sys2Proof/Laws/Step.lean ====
section
/-! SUPPORT. What a step can do, said once: outside the array it faults; inside it either reports a word that does not
decode, or runs the handler of the decoded record, in the state whose pc is advanced. -/

namespace Sys2Proof.Machine

theorem step_of_fetch_none {s : State} (h : fetch s = none) : step s = .fault .fetchOutsideProgram := by
  unfold step cycle; rw [h]

theorem step_of_fetch_some {s : State} {w : Word} (h : fetch s = some w) : step s = coreStep w s := by
  unfold step cycle; rw [h]

theorem coreStep_of_error {w : Word} {f : DecodeFailure} (h : decode w = .error f) (s : State) :
    coreStep w s = reportOnly (advancePc s) (.decodeFailure f) := by
  unfold decode at h; unfold coreStep coreStepWith; rw [h]

theorem coreStep_of_ok {w : Word} {d : Record} (h : decode w = .ok d) (s : State) :
    coreStep w s = dispatch d (advancePc s) := by
  unfold decode at h; unfold coreStep coreStepWith; rw [h]

theorem dispatch_of_some {d : Record} {i : Instr} (h : d.toInstr = some i) (s : State) :
    dispatch d s = exec i s := by unfold dispatch; rw [h]

theorem dispatch_of_none {d : Record} (h : d.toInstr = none) (s : State) :
    dispatch d s = defaultHandler s d.format d.code := by unfold dispatch; rw [h]

/-- The word placed where the next step fetches is the word fetched. -/
theorem fetch_placeAtPc (s : State) (w : Word) : fetch (placeAtPc s w) = some w :=
  Memory.getElem?_place_self s.program (fetchIndex s).toNat w

theorem fetch_eq_none_iff (s : State) : fetch s = none ↔ programLength s ≤ (fetchIndex s).toNat := by
  unfold fetch fetchWord programLength; exact List.getElem?_eq_none_iff

end Sys2Proof.Machine
end

