-- ==== Sys2Proof/Tests/Slice0.lean ====
section
/-! SUPPORT. Tests of single decodes and single steps. Every expected value is the spec's: the tables and worked examples
of spec/95_test_vectors.md, or a hand calculation from the rule named. The words are the spec's, or written out from the
encodings of spec/30_encoding.md R59, R77 and R78. The last part shows, for every statement with hypotheses, concrete
values that meet them. -/

namespace Sys2Proof.Tests

open Sys2Proof.Machine

/-- The state after reset, with `pc` and some registers set. -/
def st (pc : Word) (regs : List (RegIdx × Word)) : State :=
  regs.foldl (fun s p => writeReg s p.1 p.2) (setPc State.reset pc)

/-- The same with a program array. -/
def prog (ws : Memory) (pc : Word) (regs : List (RegIdx × Word)) : State := withProgram (st pc regs) ws

/-- Register `q`, pc and the report after one core step on the word `w`. -/
def after (w : Word) (s : State) (q : RegIdx) : Option (Word × Word × Report) :=
  match coreStep w s with
  | .next t => some (readReg t q, t.pc, report t)
  | _ => none

/-- `hi`, `lo` and the report after one core step on the word `w`. -/
def accAfter (w : Word) (s : State) : Option (Word × Word × Report) :=
  match coreStep w s with
  | .next t => some (t.hi, t.lo, report t)
  | _ => none

/-- The start of the multiply and divide table (95_test_vectors.md 2.4). -/
def acc (a b : Word) : State := setHiLo (st 0 [(1, a), (2, b)]) 0x11111111 0x22222222

/-- The start of the unhandled table (95_test_vectors.md 2.7), also of the DecodeFailure rows of 2.2. -/
def unh : State := st 0x20 [(1, 0x100), (2, 0x55), (8, 0x77)]

/-- A small instance of the state behind a next outcome, the reset state behind any other. -/
def get (r : Result) : State :=
  match r with
  | .next t => t
  | _ => State.reset

/-- Whether an outcome is a next state. -/
def isNext (r : Result) : Bool :=
  match r with
  | .next _ => true
  | _ => false

theorem next_get {r : Result} (h : isNext r = true) : r = .next (get r) := by
  cases r with
  | next _ => rfl
  | fault _ => simp [isNext] at h
  | refused _ => simp [isNext] at h

/-! ### Extension (R12) and the codec (2.1) -/

theorem test_maskFor :
    Codec.maskFor 1 = .ok 0x00000001#32 ∧ Codec.maskFor 5 = .ok 0x0000001F#32 ∧
    Codec.maskFor 32 = .ok 0xFFFFFFFF#32 ∧ Codec.maskFor 0 = .error .rangeError ∧ Codec.maskFor 33 = .error .rangeError := by
  decide

theorem test_fieldMask :
    Codec.fieldMask 6 26 = .ok 0xFC000000#32 ∧ Codec.fieldMask 5 21 = .ok 0x03E00000#32 ∧
    Codec.fieldMask 26 0 = .ok 0x03FFFFFF#32 ∧ Codec.fieldMask 1 32 = .error .rangeError ∧
    Codec.fieldMask 8 28 = .ok 0xF0000000#32 := by
  decide

/-- R12, by hand: the 16-bit values are those of 2.5. -/
theorem test_extensions :
    sext32 0xFFF9 = 0xFFFFFFF9#32 ∧ zext32 0x8001 = 0x00008001#32 ∧ sext64 0xFFFFFFF9 = 0xFFFFFFFFFFFFFFF9#64 ∧
    sext64 0x7FFFFFFF = 0x000000007FFFFFFF#64 ∧ zext64 0xFFFFFFF9 = 0x00000000FFFFFFF9#64 := by
  decide

theorem test_extract :
    Codec.extract 0x1022002A#32 0xFC000000#32 26 = .ok 0x04#32 ∧
    Codec.extract 0x1022002A#32 0x0000FFFF#32 0 = .ok 0x002A#32 ∧
    Codec.extract 0x0BFFFFFF#32 0x03FFFFFF#32 0 = .ok 0x3FFFFFF#32 := by
  decide

/-! ### Decoding: every constructor by a word of it, and words that do not decode (1, 2.2) -/

theorem test_decode_sll :
    decodeInstr 0x00021900#32 = some (.sll 0 2 3 4) ∧
    encode (.sll 0 2 3 4) = 0x00021900#32 := by
  decide

theorem test_decode_srl :
    decodeInstr 0x00021FC2#32 = some (.srl 0 2 3 31) ∧
    encode (.srl 0 2 3 31) = 0x00021FC2#32 := by
  decide

theorem test_decode_jr :
    decodeInstr 0x03E00008#32 = some (.jr 31 0 0 0) ∧
    encode (.jr 31 0 0 0) = 0x03E00008#32 := by
  decide

theorem test_decode_mfhi :
    decodeInstr 0x00001810#32 = some (.mfhi 0 0 3 0) ∧
    encode (.mfhi 0 0 3 0) = 0x00001810#32 := by
  decide

theorem test_decode_mflo :
    decodeInstr 0x00001812#32 = some (.mflo 0 0 3 0) ∧
    encode (.mflo 0 0 3 0) = 0x00001812#32 := by
  decide

theorem test_decode_mult :
    decodeInstr 0x00220018#32 = some (.mult 1 2 0 0) ∧
    encode (.mult 1 2 0 0) = 0x00220018#32 := by
  decide

theorem test_decode_multu :
    decodeInstr 0x00220019#32 = some (.multu 1 2 0 0) ∧
    encode (.multu 1 2 0 0) = 0x00220019#32 := by
  decide

theorem test_decode_div :
    decodeInstr 0x0022001A#32 = some (.div 1 2 0 0) ∧
    encode (.div 1 2 0 0) = 0x0022001A#32 := by
  decide

theorem test_decode_divu :
    decodeInstr 0x0022001B#32 = some (.divu 1 2 0 0) ∧
    encode (.divu 1 2 0 0) = 0x0022001B#32 := by
  decide

theorem test_decode_add :
    decodeInstr 0x002219E0#32 = some (.add 1 2 3 7) ∧
    encode (.add 1 2 3 7) = 0x002219E0#32 := by
  decide

theorem test_decode_addu :
    decodeInstr 0x00221821#32 = some (.addu 1 2 3 0) ∧
    encode (.addu 1 2 3 0) = 0x00221821#32 := by
  decide

theorem test_decode_sub :
    decodeInstr 0x00621822#32 = some (.sub 3 2 3 0) ∧
    encode (.sub 3 2 3 0) = 0x00621822#32 := by
  decide

theorem test_decode_subu :
    decodeInstr 0x00221823#32 = some (.subu 1 2 3 0) ∧
    encode (.subu 1 2 3 0) = 0x00221823#32 := by
  decide

theorem test_decode_and :
    decodeInstr 0x00221824#32 = some (.and 1 2 3 0) ∧
    encode (.and 1 2 3 0) = 0x00221824#32 := by
  decide

theorem test_decode_or :
    decodeInstr 0x00221825#32 = some (.or 1 2 3 0) ∧
    encode (.or 1 2 3 0) = 0x00221825#32 := by
  decide

theorem test_decode_nor :
    decodeInstr 0x00221827#32 = some (.nor 1 2 3 0) ∧
    encode (.nor 1 2 3 0) = 0x00221827#32 := by
  decide

theorem test_decode_slt :
    decodeInstr 0x0022182A#32 = some (.slt 1 2 3 0) ∧
    encode (.slt 1 2 3 0) = 0x0022182A#32 := by
  decide

theorem test_decode_sltu :
    decodeInstr 0x0022182B#32 = some (.sltu 1 2 3 0) ∧
    encode (.sltu 1 2 3 0) = 0x0022182B#32 := by
  decide

theorem test_decode_beq :
    decodeInstr 0x1022002A#32 = some (.beq 1 2 42) ∧
    encode (.beq 1 2 42) = 0x1022002A#32 := by
  decide

theorem test_decode_bne :
    decodeInstr 0x1422FFFF#32 = some (.bne 1 2 0xFFFF) ∧
    encode (.bne 1 2 0xFFFF) = 0x1422FFFF#32 := by
  decide

theorem test_decode_addi :
    decodeInstr 0x20228000#32 = some (.addi 1 2 0x8000) ∧
    encode (.addi 1 2 0x8000) = 0x20228000#32 := by
  decide

theorem test_decode_addiu :
    decodeInstr 0x2408FFF9#32 = some (.addiu 0 8 0xFFF9) ∧
    encode (.addiu 0 8 0xFFF9) = 0x2408FFF9#32 := by
  decide

theorem test_decode_slti :
    decodeInstr 0x2822000A#32 = some (.slti 1 2 10) ∧
    encode (.slti 1 2 10) = 0x2822000A#32 := by
  decide

theorem test_decode_sltiu :
    decodeInstr 0x2C22FFFF#32 = some (.sltiu 1 2 0xFFFF) ∧
    encode (.sltiu 1 2 0xFFFF) = 0x2C22FFFF#32 := by
  decide

theorem test_decode_andi :
    decodeInstr 0x30228001#32 = some (.andi 1 2 0x8001) ∧
    encode (.andi 1 2 0x8001) = 0x30228001#32 := by
  decide

theorem test_decode_ori :
    decodeInstr 0x342200FF#32 = some (.ori 1 2 0x00FF) ∧
    encode (.ori 1 2 0x00FF) = 0x342200FF#32 := by
  decide

theorem test_decode_lui :
    decodeInstr 0x3C081234#32 = some (.lui 0 8 0x1234) ∧
    encode (.lui 0 8 0x1234) = 0x3C081234#32 := by
  decide

theorem test_decode_lw :
    decodeInstr 0x8C220004#32 = some (.lw 1 2 4) ∧
    encode (.lw 1 2 4) = 0x8C220004#32 := by
  decide

theorem test_decode_lbu :
    decodeInstr 0x90220000#32 = some (.lbu 1 2 0) ∧
    encode (.lbu 1 2 0) = 0x90220000#32 := by
  decide

theorem test_decode_lhu :
    decodeInstr 0x94220002#32 = some (.lhu 1 2 2) ∧
    encode (.lhu 1 2 2) = 0x94220002#32 := by
  decide

theorem test_decode_sb :
    decodeInstr 0xA0220000#32 = some (.sb 1 2 0) ∧
    encode (.sb 1 2 0) = 0xA0220000#32 := by
  decide

theorem test_decode_sh :
    decodeInstr 0xA4220002#32 = some (.sh 1 2 2) ∧
    encode (.sh 1 2 2) = 0xA4220002#32 := by
  decide

theorem test_decode_sw :
    decodeInstr 0xAC220004#32 = some (.sw 1 2 4) ∧
    encode (.sw 1 2 4) = 0xAC220004#32 := by
  decide

theorem test_decode_ll :
    decodeInstr 0xC0220000#32 = some (.ll 1 2 0) ∧
    encode (.ll 1 2 0) = 0xC0220000#32 := by
  decide

theorem test_decode_sc :
    decodeInstr 0xE0220000#32 = some (.sc 1 2 0) ∧
    encode (.sc 1 2 0) = 0xE0220000#32 := by
  decide

theorem test_decode_j :
    decodeInstr 0x0BFFFFFF#32 = some (.j 0x3FFFFFF) ∧
    encode (.j 0x3FFFFFF) = 0x0BFFFFFF#32 := by
  decide

theorem test_decode_jal :
    decodeInstr 0x0C000006#32 = some (.jal 6) ∧
    encode (.jal 6) = 0x0C000006#32 := by
  decide

/-- E1, E2, E3. -/
theorem test_decode_records :
    decode 0x00221820#32 = .ok (.r 1 2 3 0 .add) ∧ decode 0x1022002A#32 = .ok (.i .beq 1 2 42) ∧
    decode 0x0800000A#32 = .ok (.j .j 10) := by
  decide

theorem test_bad_functs_low :
    decode 0x00000003#32 = .error (.badFunct 0x03#6) ∧ 
    decode 0x00000009#32 = .error (.badFunct 0x09#6) ∧ decode 0x0000000C#32 = .error (.badFunct 0x0C#6) ∧ 
    decode 0x0000000D#32 = .error (.badFunct 0x0D#6) := by
  decide

theorem test_bad_functs_high :
    decode 0x0000000F#32 = .error (.badFunct 0x0F#6) ∧ 
    decode 0x00000011#32 = .error (.badFunct 0x11#6) ∧ decode 0x0000001C#32 = .error (.badFunct 0x1C#6) ∧ 
    decode 0x00000026#32 = .error (.badFunct 0x26#6) := by
  decide

theorem test_bad_opcodes_low :
    decode 0x04010001#32 = .error (.badOpcode 0x01#6) ∧ 
    decode 0x18200001#32 = .error (.badOpcode 0x06#6) ∧ decode 0x1C200001#32 = .error (.badOpcode 0x07#6) ∧ 
    decode 0x38220001#32 = .error (.badOpcode 0x0E#6) := by
  decide

theorem test_bad_opcodes_high :
    decode 0x40000000#32 = .error (.badOpcode 0x10#6) ∧ 
    decode 0x80220000#32 = .error (.badOpcode 0x20#6) ∧ decode 0xFC000000#32 = .error (.badOpcode 0x3F#6) := by
  decide

/-- An ill-formed record for each check of `Record.wf`, which refuses it; the last step of `Record.toInstr` refuses it too. -/
theorem test_ill_formed_records :
    Record.wf (.r 1 2 3 0 (.extra 0x26)) = false ∧ Record.wf (.r 1 2 3 0 (.extra 0x20)) = false ∧
    Record.wf (.i .j 1 2 3) = false ∧ Record.wf (.i .rType 1 2 3) = false ∧ Record.wf (.j .beq 4) = false := by
  decide

theorem test_ill_formed_records_select_nothing :
    Record.toInstr (.r 1 2 3 0 (.extra 0x26)) = none ∧ Record.toInstr (.i .j 1 2 3) = none ∧
    Record.toInstr (.i .rType 1 2 3) = none ∧ Record.toInstr (.j .beq 4) = none := by
  decide

theorem test_decodeTableWord :
    decodeTableWord 32 0x00221820 = some (.add 1 2 3 0) ∧ decodeTableWord 32 0xFC000000 = none ∧
    decodeTableWord 6 0xFFFFFFC0 = some (.sll 0 0 0 0) := by
  decide

/-! ### The register-register ALU (2.3) -/

theorem test_add_wraps :
    after 0x00221820#32 (st 0 [(1, 0x7FFFFFFF), (2, 0x1)]) 3 = some (0x80000000#32, 4#32, .ok) := by
  decide

theorem test_add_one_register_thrice_and_to_zero :
    after 0x00210820#32 (st 0 [(1, 0x40000000)]) 1 = some (0x80000000#32, 4#32, .ok) ∧
    after 0x00220020#32 (st 0 [(1, 5), (2, 6)]) 0 = some (0#32, 4#32, .ok) := by
  decide

theorem test_addu_wraps :
    after 0x00221821#32 (st 0 [(1, 0xFFFFFFFF), (2, 0x2)]) 3 = some (0x00000001#32, 4#32, .ok) := by
  decide

theorem test_sub_wraps :
    after 0x00221822#32 (st 0 [(1, 0x80000000), (2, 0x1)]) 3 = some (0x7FFFFFFF#32, 4#32, .ok) := by
  decide

theorem test_sub_negative :
    after 0x00221822#32 (st 0 [(1, 0x5), (2, 0x7)]) 3 = some (0xFFFFFFFE#32, 4#32, .ok) := by
  decide

theorem test_subu_wraps :
    after 0x00221823#32 (st 0 [(1, 0x0), (2, 0x1)]) 3 = some (0xFFFFFFFF#32, 4#32, .ok) := by
  decide

theorem test_and :
    after 0x00221824#32 (st 0 [(1, 0xF0F0F0F0), (2, 0xFF00FF0)]) 3 = some (0x00F000F0#32, 4#32, .ok) := by
  decide

theorem test_or :
    after 0x00221825#32 (st 0 [(1, 0xF0F0F0F0), (2, 0xFF00FF0)]) 3 = some (0xFFF0FFF0#32, 4#32, .ok) := by
  decide

theorem test_nor :
    after 0x00221827#32 (st 0 [(1, 0xF0F0F0F0), (2, 0xFF00FF0)]) 3 = some (0x000F000F#32, 4#32, .ok) := by
  decide

theorem test_slt_signed :
    after 0x0022182A#32 (st 0 [(1, 0x80000000), (2, 0x7FFFFFFF)]) 3 = some (0x00000001#32, 4#32, .ok) := by
  decide

theorem test_slt_not_less :
    after 0x0022182A#32 (st 0 [(1, 0x1), (2, 0xFFFFFFFF)]) 3 = some (0x00000000#32, 4#32, .ok) := by
  decide

theorem test_sltu_unsigned :
    after 0x0022182B#32 (st 0 [(1, 0x1), (2, 0xFFFFFFFF)]) 3 = some (0x00000001#32, 4#32, .ok) := by
  decide

theorem test_sltu_equal :
    after 0x0022182B#32 (st 0 [(1, 0x5), (2, 0x5)]) 3 = some (0x00000000#32, 4#32, .ok) := by
  decide

theorem test_sll_ignores_rs :
    after 0x00A21840#32 (st 0 [(2, 3), (5, 0xFFFF)]) 3 = some (6#32, 4#32, .ok) := by
  decide

theorem test_sll_drops_the_top :
    after 0x00021900#32 (st 0 [(2, 0xFFFFFFF9)]) 3 = some (0xFFFFFF90#32, 4#32, .ok) := by
  decide

theorem test_srl_is_logical :
    after 0x00021902#32 (st 0 [(2, 0xFFFFFFF9)]) 3 = some (0x0FFFFFFF#32, 4#32, .ok) := by
  decide

theorem test_srl_by_31 :
    after 0x00021FC2#32 (st 0 [(2, 0x80000000)]) 3 = some (0x00000001#32, 4#32, .ok) := by
  decide

/-! ### Multiply, divide, moves (2.4) -/

theorem test_mult_signed :
    accAfter 0x00220018#32 (acc 0xFFFFFFF9 0x00000002) = some (0xFFFFFFFF#32, 0xFFFFFFF2#32, .ok) := by
  decide

theorem test_mult_least_by_greatest :
    accAfter 0x00220018#32 (acc 0x80000000 0x7FFFFFFF) = some (0xC0000000#32, 0x80000000#32, .ok) := by
  decide

theorem test_multu_unsigned :
    accAfter 0x00220019#32 (acc 0xFFFFFFF9 0x00000002) = some (0x00000001#32, 0xFFFFFFF2#32, .ok) := by
  decide

theorem test_multu_greatest :
    accAfter 0x00220019#32 (acc 0xFFFFFFFF 0xFFFFFFFF) = some (0xFFFFFFFE#32, 0x00000001#32, .ok) := by
  decide

theorem test_div_rounds_toward_zero :
    accAfter 0x0022001A#32 (acc 0xFFFFFFF9 0x00000002) = some (0xFFFFFFFF#32, 0xFFFFFFFD#32, .ok) ∧
    accAfter 0x0022001A#32 (acc 0x00000007 0xFFFFFFFE) = some (0x00000001#32, 0xFFFFFFFD#32, .ok) := by
  decide

theorem test_div_corners :
    accAfter 0x0022001A#32 (acc 0x80000000 0xFFFFFFFF) = some (0x00000000#32, 0x80000000#32, .ok) ∧
    accAfter 0x0022001A#32 (acc 0x00000005 0x00000000) = some (0x11111111#32, 0x22222222#32, .divideByZero) := by
  decide

theorem test_divu_unsigned :
    accAfter 0x0022001B#32 (acc 0xFFFFFFF9 0x00000002) = some (0x00000001#32, 0x7FFFFFFC#32, .ok) := by
  decide

theorem test_divu_by_zero :
    accAfter 0x0022001B#32 (acc 0x00000005 0x00000000) = some (0x11111111#32, 0x22222222#32, .divideByZero) := by
  decide

theorem test_mfhi :
    after 0x00001810#32 (setHiLo (st 0 []) 0xDEADBEEF 0x12345678) 3 = some (0xDEADBEEF#32, 4#32, .ok) := by
  decide

theorem test_mflo :
    after 0x00001812#32 (setHiLo (st 0 []) 0xDEADBEEF 0x12345678) 3 = some (0x12345678#32, 4#32, .ok) := by
  decide

/-! ### Immediate operations (2.5) -/

theorem test_addi_wraps :
    after 0x20220001#32 (st 0 [(1, 0x7FFFFFFF)]) 2 = some (0x80000000#32, 4#32, .ok) := by
  decide

theorem test_addi_sign_extends :
    after 0x20228000#32 (st 0 [(1, 0x0)]) 2 = some (0xFFFF8000#32, 4#32, .ok) := by
  decide

theorem test_addiu_sign_extends :
    after 0x2422FFF9#32 (st 0 [(1, 0x0)]) 2 = some (0xFFFFFFF9#32, 4#32, .ok) := by
  decide

theorem test_addiu_wraps :
    after 0x24220001#32 (st 0 [(1, 0xFFFFFFFF)]) 2 = some (0x00000000#32, 4#32, .ok) := by
  decide

theorem test_slti_less :
    after 0x28228000#32 (st 0 [(1, 0xFFFF7FFF)]) 2 = some (0x00000001#32, 4#32, .ok) := by
  decide

theorem test_slti_equal :
    after 0x28228000#32 (st 0 [(1, 0xFFFF8000)]) 2 = some (0x00000000#32, 4#32, .ok) := by
  decide

theorem test_sltiu_sign_extends :
    after 0x2C22FFFF#32 (st 0 [(1, 0x5)]) 2 = some (0x00000001#32, 4#32, .ok) := by
  decide

theorem test_sltiu_equal :
    after 0x2C22FFFF#32 (st 0 [(1, 0xFFFFFFFF)]) 2 = some (0x00000000#32, 4#32, .ok) := by
  decide

theorem test_andi_zero_extends :
    after 0x30228001#32 (st 0 [(1, 0xFFFFFFFF)]) 2 = some (0x00008001#32, 4#32, .ok) := by
  decide

theorem test_ori_zero_extends :
    after 0x34228001#32 (st 0 [(1, 0x0)]) 2 = some (0x00008001#32, 4#32, .ok) := by
  decide

theorem test_ori_keeps_the_high_half :
    after 0x342200FF#32 (st 0 [(1, 0xFFFF0000)]) 2 = some (0xFFFF00FF#32, 4#32, .ok) := by
  decide

/-! ### Branches and jumps (2.6) -/

theorem test_beq_taken_or_not :
    after 0x10220002#32 (st 0x100 [(1, 7), (2, 7)]) 0 = some (0x00000000#32, 0x0000010C#32, .ok) ∧
    after 0x10220002#32 (st 0x100 [(1, 7), (2, 8)]) 0 = some (0x00000000#32, 0x00000104#32, .ok) := by
  decide

theorem test_beq_farthest_back_and_misaligned :
    after 0x10008000#32 (st 0x100000 []) 0 = some (0x00000000#32, 0x000E0004#32, .ok) ∧
    after 0x10000001#32 (st 0x102 []) 0 = some (0x00000000#32, 0x0000010A#32, .ok) := by
  decide

theorem test_bne_taken :
    after 0x1422FFFF#32 (st 0x100 [(1, 7), (2, 8)]) 0 = some (0x00000000#32, 0x00000100#32, .ok) := by
  decide

theorem test_bne_not_taken :
    after 0x14220005#32 (st 0x100 [(1, 7), (2, 7)]) 0 = some (0x00000000#32, 0x00000104#32, .ok) := by
  decide

theorem test_j_at_a_region_edge :
    after 0x08000000#32 (st 0xFFFFFFC []) 0 = some (0x00000000#32, 0x10000000#32, .ok) := by
  decide

theorem test_j_clears_low_bits :
    after 0x08000001#32 (st 0x102 []) 0 = some (0x00000000#32, 0x00000004#32, .ok) := by
  decide

theorem test_jal_links_p_plus_8 :
    after 0x0C000006#32 (st 0x4 []) 31 = some (0x0000000C#32, 0x00000018#32, .ok) := by
  decide

theorem test_jal_wraps :
    after 0x0C000000#32 (st 0xFFFFFFFC []) 31 = some (0x00000004#32, 0x00000000#32, .ok) := by
  decide

theorem test_jr_keeps_low_bits :
    after 0x00200008#32 (st 0x0 [(1, 0x103)]) 0 = some (0x00000000#32, 0x00000103#32, .ok) := by
  decide

theorem test_jr_ignores_fields :
    after 0x002530C8#32 (st 0x0 [(1, 0x40), (5, 9)]) 6 = some (0x00000000#32, 0x00000040#32, .ok) := by
  decide

/-! ### Opcodes without a handler (2.7), and words that do not decode (2.2) -/

theorem test_lui_only_reports :
    after 0x3C081234#32 unh 8 = some (0x77#32, 0x24#32, .unhandledInstruction .I 0x0F#6) := by
  decide

theorem test_lw_only_reports :
    after 0x8C220004#32 unh 2 = some (0x55#32, 0x24#32, .unhandledInstruction .I 0x23#6) := by
  decide

theorem test_lbu_only_reports :
    after 0x90220000#32 unh 2 = some (0x55#32, 0x24#32, .unhandledInstruction .I 0x24#6) := by
  decide

theorem test_lhu_only_reports :
    after 0x94220002#32 unh 2 = some (0x55#32, 0x24#32, .unhandledInstruction .I 0x25#6) := by
  decide

theorem test_sb_only_reports :
    after 0xA0220000#32 unh 2 = some (0x55#32, 0x24#32, .unhandledInstruction .I 0x28#6) := by
  decide

theorem test_sh_only_reports :
    after 0xA4220002#32 unh 2 = some (0x55#32, 0x24#32, .unhandledInstruction .I 0x29#6) := by
  decide

theorem test_sw_only_reports :
    after 0xAC220004#32 unh 2 = some (0x55#32, 0x24#32, .unhandledInstruction .I 0x2B#6) := by
  decide

theorem test_ll_only_reports :
    after 0xC0220000#32 unh 2 = some (0x55#32, 0x24#32, .unhandledInstruction .I 0x30#6) := by
  decide

theorem test_sc_only_reports :
    after 0xE0220000#32 unh 2 = some (0x55#32, 0x24#32, .unhandledInstruction .I 0x38#6) := by
  decide

theorem test_xor_is_no_instruction :
    after 0x00000026#32 unh 2 = some (0x55#32, 0x24#32, .decodeFailure (.badFunct 0x26#6)) := by
  decide

theorem test_bgez_is_no_instruction :
    after 0x04010001#32 unh 1 = some (0x100#32, 0x24#32, .decodeFailure (.badOpcode 0x01#6)) := by
  decide

/-- The report codes of R154. -/
theorem test_report_codes :
    ([Report.ok, .decodeFailure (.badOpcode 0), .decodeFailure (.badFunct 0), .unhandledInstruction .I 0,
    .divideByZero]).map Report.code = [0, 1, 2, 3, 4] := by
  decide

/-! ### The step, the run and reset (3; 20_memory.md, 70_reset_and_hazards.md) -/

/-- P5, first word, as the first instruction after reset. -/
theorem test_step_runs_the_fetched_word :
    (get (step (State.reset.withFetchWord 32 0x24010040))).x[1] = 0x40#32 := by
  decide

theorem test_withFetchWord_replaces :
    (get (step ((prog [0x24010040, 0x24020055, 0xAC220000] 4 []).withFetchWord 32 0x2408FFF9))).x[8] = 0xFFFFFFF9#32 := by
  decide

/-- R42: pc 7 fetches word 1. -/
theorem test_fetch_ignores_low_bits :
    fetch (prog [0x24010040, 0x24020055] 7 []) = some 0x24020055#32 := by
  decide

theorem test_step_outside_the_array :
    step (prog [0x24010040, 0x24020055] 8 []) = .fault .fetchOutsideProgram ∧
    step State.reset = .fault .fetchOutsideProgram :=
  ⟨rfl, rfl⟩

/-- R173. -/
theorem test_reset_event_keeps_the_program :
    (get (onEvent .reset (prog [0x24010040] 4 [(1, 7)]))).program = [0x24010040#32] ∧
    readReg (get (onEvent .reset (prog [0x24010040] 4 [(1, 7)]))) 1 = 0#32 := by
  decide

/-- R33, R34. -/
theorem test_outputs_show_register_zero :
    (outputs (st 0x107 [(31, 9)])).xOut[0] = 0#32 ∧ (outputs (st 0x107 [(31, 9)])).xOut[31] = 9#32 ∧
    (outputs (st 0x107 [(31, 9)])).fetchIndex = 0x41#30 := by
  decide

/-! ### Names and text (R22, R84, R85) -/

theorem test_register_names :
    regName 0 = "$zero" ∧ regName 8 = "$t0" ∧ regName 16 = "$s0" ∧ regName 31 = "$ra" ∧ regNames.length = 32 := by
  decide

theorem test_operand_order :
    Instr.asmOperands 0 (.sub 3 2 4 0) = [.reg 4, .reg 3, .reg 2] ∧
    Instr.asmOperands 0x100 (.beq 1 2 2) = [.reg 1, .reg 2, .label 0x10C#32] ∧
    Instr.asmOperands 0 (.lw 1 2 4) = [.reg 2, .mem 4 1] := by
  decide

/-- R81, R85, R142. -/
theorem test_nop_is_the_zero_word :
    encode Pseudo.nop = 0x00000000#32 ∧ encode Pseudo.ret = 0x03E00008#32 ∧
    encode (Pseudo.b 0xFFFE) = 0x1000FFFE#32 := by
  decide

/-! ### Values that meet the hypotheses of each statement, clause by clause -/

theorem test_witness_FieldsAreCodecExtractions :
    ((26, 0) : Nat × Nat) ∈ Format.layout .R ++ Format.layout .I ++ Format.layout .J ∧
    ((6, 26) : Nat × Nat) ∈ Format.layout .R ++ Format.layout .I ++ Format.layout .J := by
  decide

/-- The ends of both clauses; the values there are `test_maskFor`'s. -/
theorem test_witness_MaskForSetsTheLowBits :
    (1 ≤ 1 ∧ 1 ≤ 32) ∧ (1 ≤ 32 ∧ 32 ≤ 32) ∧ ¬(1 ≤ 0 ∧ 0 ≤ 32) ∧ ¬(1 ≤ 33 ∧ 33 ≤ 32) := by
  decide

/-- The ends of both clauses. -/
theorem test_witness_FieldMaskSetsTheFieldBits :
    Codec.fieldMask 32 31 = .ok 0x80000000#32 ∧ Codec.fieldMask 1 0 = .ok 0x00000001#32 ∧
    Codec.fieldMask 1 32 = .error .rangeError ∧ Codec.fieldMask 0 31 = .error .rangeError ∧
    Codec.fieldMask 33 0 = .error .rangeError := by
  decide

theorem test_witness_FieldsPartitionTheWord :
    opcodeField 0x002219E0#32 = 0 ∧ encR 1 2 3 7 0x20 = 0x002219E0#32 := by
  decide

/-- One word for each of the five clauses. -/
theorem test_witness_DecoderFunction :
    (0x0000002B#32 : Word).extractLsb' 26 6 = 0x00#6 ∧ decode 0x0000002B#32 = .ok (.r 0 0 0 0 .sltu) ∧
    (0x0000002C#32 : Word).extractLsb' 26 6 = 0x00#6 ∧ decode 0x0000002C#32 = .error (.badFunct 0x2C) ∧
    (0x0C000000#32 : Word).extractLsb' 26 6 = 0x03#6 ∧ decode 0x0C000000#32 = .ok (.j .jal 0) ∧
    (0x10000000#32 : Word).extractLsb' 26 6 = 0x04#6 ∧ decode 0x10000000#32 = .ok (.i .beq 0 0 0) ∧
    (0x18000000#32 : Word).extractLsb' 26 6 = 0x06#6 ∧ decode 0x18000000#32 = .error (.badOpcode 0x06) := by
  decide

theorem test_witness_RecordsRoundTrip :
    decode 0x0BFFFFFF#32 = .ok (.j .j 0x3FFFFFF) ∧ Record.wf (.j .j 0x3FFFFFF) = true ∧
    Record.wf (.r 31 31 31 31 .sltu) = true ∧ Record.wf (.i .sc 31 31 0xFFFF) = true := by
  decide

theorem test_witness_InstructionsRoundTrip :
    Instr.WellFormed (.sc 31 31 0xFFFF) ∧ decodeInstr 0xE3FFFFFF#32 = some (.sc 31 31 0xFFFF) := by
  decide

theorem test_witness_RegisterZeroIsHardwired :
    (31#5 : RegIdx) ≠ 0#5 ∧ readReg (writeReg State.reset 31#5 7#32) 31#5 = 7#32 ∧
    readReg (writeReg State.reset 31#5 7#32) 1#5 = 0#32 ∧
    readRegWith false (writeRegWith false State.reset 0#5 7#32) 0#5 = 7#32 := by
  decide

theorem test_witness_ResetEventStartsANewRun :
    (prog [0#32] 4 [(1, 7)]).program = (prog [0#32] 0 []).program ∧ prog [0#32] 4 [(1, 7)] ≠ prog [0#32] 0 [] := by
  decide

theorem test_witness_OutputsAreTheState :
    fetch (prog [0x24010040] 0 []) = some 0x24010040#32 := by
  decide

theorem test_witness_StepRunsTheDecodedInstruction :
    fetchWord (prog [0x00221820] 3 []) ((prog [0x00221820] 3 []).pc.toNat / 4) = some 0x00221820#32 ∧
    decodeInstr 0x00221820#32 = some (.add 1 2 3 0) := by
  decide

theorem test_witness_FetchIndexIsFloorOfPc :
    (0x103#32 : Word).extractLsb' 2 30 = (st 0x100 []).pc.extractLsb' 2 30 ∧ 0x103#32 ≠ (st 0x100 []).pc := by
  decide

/-- The last address inside, the first outside. -/
theorem test_witness_StepAnswersExactlyInsideTheArray :
    (prog [0#32] 3 []).pc.toNat / 4 < programLength (prog [0#32] 3 []) ∧
    programLength (prog [0#32] 4 []) ≤ (prog [0#32] 4 []).pc.toNat / 4 := by
  decide

theorem test_witness_PcAdvancesByFour :
    fetch (prog [0x00221820] 0 []) = some 0x00221820#32 ∧
    step (prog [0x00221820] 0 []) = .next (get (step (prog [0x00221820] 0 []))) ∧
    ¬ ((0x00221820#32 : Word).extractLsb' 26 6 ∈ [0x02#6, 0x03#6, 0x04#6, 0x05#6]) ∧
    ¬ ((0x00221820#32 : Word).extractLsb' 26 6 = 0x00#6 ∧ (0x00221820#32 : Word).extractLsb' 0 6 = 0x08#6) :=
  ⟨by decide, next_get (by decide), by decide, by decide⟩

theorem test_witness_DecodeFailureOnlyAdvances :
    fetch (prog [0xFC000000] 0 []) = some 0xFC000000#32 ∧ decode 0xFC000000#32 = .error (.badOpcode 0x3F) ∧
    fetch (prog [0x0000003F] 0 []) = some 0x0000003F#32 ∧ decode 0x0000003F#32 = .error (.badFunct 0x3F) := by
  decide

theorem test_witness_ExtraFunctsDifferOnlyInTheReport :
    (0x00000026#32 : Word).extractLsb' 26 6 = 0x00#6 ∧ (0x00000026#32 : Word).extractLsb' 0 6 ∈ [0x26#6] ∧
    (0x00000026#32 : Word).extractLsb' 0 6 ∉ [0x00#6, 0x02#6, 0x08#6, 0x10#6, 0x12#6, 0x18#6, 0x19#6, 0x1A#6, 0x1B#6,
      0x20#6, 0x21#6, 0x22#6, 0x23#6, 0x24#6, 0x25#6, 0x27#6, 0x2A#6, 0x2B#6] ∧
    report (get (coreStepWith [0x26#6] 0x00000026#32 unh)) = .unhandledInstruction .R 0x26#6 := by
  decide

theorem test_witness_DispatchMatchesTheDecoder :
    Record.toInstr (.i .lui 0 8 0x1234) = some (.lui 0 8 0x1234) ∧
    exec (.lui 0 8 0x1234) unh = .next (get (exec (.lui 0 8 0x1234) unh)) ∧
    report (get (exec (.lui 0 8 0x1234) unh)) = .unhandledInstruction .I 0x0F#6 ∧
    exec (.sll 0 0 0 0) unh = .next (get (exec (.sll 0 0 0 0) unh)) ∧
    report (get (exec (.sll 0 0 0 0) unh)) = .ok :=
  ⟨by decide, next_get (by decide), by decide, next_get (by decide), by decide⟩

/-- A word for each of the five causes. -/
theorem test_witness_ReportIsTheFirstCause :
    ∀ p ∈ [((0xFC000000#32 : Word), Report.decodeFailure (.badOpcode 0x3F)), (0x0000003F#32, .decodeFailure (.badFunct 0x3F)),
      (0x3C081234#32, .unhandledInstruction .I 0x0F), (0x0022001A#32, .divideByZero), (0x00221820#32, .ok)],
    fetch (prog [p.1] 0 [(1, 5)]) = some p.1 ∧ report (get (step (prog [p.1] 0 [(1, 5)]))) = p.2 := by
  decide

theorem test_witness_StepKeepsTheInvariant :
    Inv (prog [0x24010040] 0 []) ∧
    step (prog [0x24010040] 0 []) = .next (get (step (prog [0x24010040] 0 []))) ∧
    onEvent (.step 0x24010040) State.reset = .next (get (onEvent (.step 0x24010040) State.reset)) ∧
    onEvent .reset (prog [0x24010040] 0 []) = .next (get (onEvent .reset (prog [0x24010040] 0 []))) :=
  ⟨by decide, next_get (by decide), next_get (by decide), next_get (by decide)⟩

theorem test_witness_RunsNeverWriteTheProgram :
    Host.Core.run core 2 (prog [0x24010040, 0xAC220000] 0 []) = .next (get (Host.Core.run core 2 (prog [0x24010040, 0xAC220000] 0 []))) :=
  next_get (r := Host.Core.run core 2 (prog [0x24010040, 0xAC220000] 0 [])) (by decide)

theorem test_witness_RunsAddOneReportPerStep :
    Host.Core.run core 2 (prog [0x24010040, 0xAC220000] 0 []) = .next (get (Host.Core.run core 2 (prog [0x24010040, 0xAC220000] 0 []))) ∧
    (get (Host.Core.run core 2 (prog [0x24010040, 0xAC220000] 0 []))).history = [.unhandledInstruction .I 0x2B, .ok] ∧
    Host.Core.run core 0 State.reset = .next State.reset :=
  ⟨next_get (r := Host.Core.run core 2 (prog [0x24010040, 0xAC220000] 0 [])) (by decide), by decide, rfl⟩

theorem test_witness_OnlyListedInstructionsWriteRegisters_alu :
    fetch (prog [0x00221821] 0 [(1, 5)]) = some 0x00221821#32 ∧
    step (prog [0x00221821] 0 [(1, 5)]) = .next (get (step (prog [0x00221821] 0 [(1, 5)]))) ∧
    readReg (get (step (prog [0x00221821] 0 [(1, 5)]))) 3 ≠ readReg (prog [0x00221821] 0 [(1, 5)]) 3 :=
  ⟨by decide, next_get (by decide), by decide⟩

theorem test_witness_OnlyListedInstructionsWriteRegisters_immediate :
    fetch (prog [0x24220001] 0 [(1, 5)]) = some 0x24220001#32 ∧
    step (prog [0x24220001] 0 [(1, 5)]) = .next (get (step (prog [0x24220001] 0 [(1, 5)]))) ∧
    readReg (get (step (prog [0x24220001] 0 [(1, 5)]))) 2 ≠ readReg (prog [0x24220001] 0 [(1, 5)]) 2 :=
  ⟨by decide, next_get (by decide), by decide⟩

theorem test_witness_OnlyListedInstructionsWriteRegisters_jal :
    fetch (prog [0x0C000006] 0 [(1, 5)]) = some 0x0C000006#32 ∧
    step (prog [0x0C000006] 0 [(1, 5)]) = .next (get (step (prog [0x0C000006] 0 [(1, 5)]))) ∧
    readReg (get (step (prog [0x0C000006] 0 [(1, 5)]))) 31 ≠ readReg (prog [0x0C000006] 0 [(1, 5)]) 31 :=
  ⟨by decide, next_get (by decide), by decide⟩

theorem test_witness_OnlyMultiplyAndDivideWriteAccumulators_mult :
    fetch (prog [0x00210018] 0 [(1, 5)]) = some 0x00210018#32 ∧
    step (prog [0x00210018] 0 [(1, 5)]) = .next (get (step (prog [0x00210018] 0 [(1, 5)]))) ∧
    (get (step (prog [0x00210018] 0 [(1, 5)]))).lo ≠ (prog [0x00210018] 0 [(1, 5)]).lo :=
  ⟨by decide, next_get (by decide), by decide⟩

theorem test_witness_OnlyMultiplyAndDivideWriteAccumulators_divu :
    fetch (prog [0x0021001B] 0 [(1, 5)]) = some 0x0021001B#32 ∧
    step (prog [0x0021001B] 0 [(1, 5)]) = .next (get (step (prog [0x0021001B] 0 [(1, 5)]))) ∧
    (get (step (prog [0x0021001B] 0 [(1, 5)]))).lo ≠ (prog [0x0021001B] 0 [(1, 5)]).lo :=
  ⟨by decide, next_get (by decide), by decide⟩

theorem test_witness_OnlyMultiplyAndDivideWriteAccumulators_zero :
    fetch (prog [0x0022001A] 0 [(1, 5)]) = some 0x0022001A#32 ∧
    step (prog [0x0022001A] 0 [(1, 5)]) = .next (get (step (prog [0x0022001A] 0 [(1, 5)]))) ∧
    (0x0022001A#32 : Word).extractLsb' 26 6 = 0x00#6 ∧
    (0x0022001A#32 : Word).extractLsb' 0 6 ∈ [0x1A#6, 0x1B#6] ∧
    readReg (prog [0x0022001A] 0 [(1, 5)]) ((0x0022001A#32 : Word).extractLsb' 16 5) = 0x00000000#32 :=
  ⟨by decide, next_get (by decide), by decide, by decide, by decide⟩

theorem test_witness_OnlyMovesReadAccumulators : ∀ rs rt rd shamt,
    Instr.add 1 2 3 0 ≠ .mfhi rs rt rd shamt ∧ Instr.add 1 2 3 0 ≠ .mflo rs rt rd shamt := by simp

theorem test_witness_OnlySourceRegistersAreRead :
    (3#5 : RegIdx) ∉ sources (.add 1 2 3 0) ∧ (2#5 : RegIdx) ∉ sources (.addi 1 2 0) ∧
    (1#5 : RegIdx) ∉ sources (.lw 1 2 0) ∧ (31#5 : RegIdx) ∉ sources (.jal 0) := by
  decide

theorem test_witness_StepDependsOnStateAndWordAlone :
    SameArch (prog [0#32] 0 [(1, 7)]) (prog [] 0 [(1, 7)]) ∧ prog [0#32] 0 [(1, 7)] ≠ prog [] 0 [(1, 7)] :=
  ⟨⟨by decide, rfl, rfl, rfl⟩, by decide⟩

theorem test_witness_PcLowBitsChangeOnlyByJumps_jump :
    fetch (prog [0x08000001] 3 [(1, 0x103)]) = some 0x08000001#32 ∧
    step (prog [0x08000001] 3 [(1, 0x103)]) = .next (get (step (prog [0x08000001] 3 [(1, 0x103)]))) ∧
    (get (step (prog [0x08000001] 3 [(1, 0x103)]))).pc = 4#32 :=
  ⟨by decide, next_get (by decide), by decide⟩

theorem test_witness_PcLowBitsChangeOnlyByJumps_other :
    fetch (prog [0x00221820] 3 [(1, 0x103)]) = some 0x00221820#32 ∧
    step (prog [0x00221820] 3 [(1, 0x103)]) = .next (get (step (prog [0x00221820] 3 [(1, 0x103)]))) ∧
    (get (step (prog [0x00221820] 3 [(1, 0x103)]))).pc = 7#32 :=
  ⟨by decide, next_get (by decide), by decide⟩

theorem test_witness_PcLowBitsChangeOnlyByJumps_jr :
    fetch (prog [0x00200008] 3 [(1, 0x103)]) = some 0x00200008#32 ∧
    step (prog [0x00200008] 3 [(1, 0x103)]) = .next (get (step (prog [0x00200008] 3 [(1, 0x103)]))) ∧
    (get (step (prog [0x00200008] 3 [(1, 0x103)]))).pc = 0x103#32 :=
  ⟨by decide, next_get (by decide), by decide⟩

/-- A run that ends, and a loop that the host stops. -/
theorem test_witness_HostRunEndsOutsideTheArray :
    runHost 2 (prog [0x24010040] 0 []) = .final (get (step (prog [0x24010040] 0 []))) ∧
    runHost 2 (prog [0x1000FFFF] 0 []) = .stopped (get (Host.Core.run core 2 (prog [0x1000FFFF] 0 []))) := by
  decide

theorem test_witness_DestinationZeroIsANoOp :
    (0x2B#6 : Code) ∈ [0x00#6, 0x02#6, 0x20#6, 0x21#6, 0x22#6, 0x23#6, 0x24#6, 0x25#6, 0x27#6, 0x2A#6, 0x2B#6] ∧
    encR 1 2 0#5 0 0x20 = 0x00220020#32 := by
  decide

/-- The destination a third register, and the first source itself. -/
theorem test_witness_AddThenSubRestores :
    (3#5 : RegIdx) ≠ 0#5 ∧ (3#5 : RegIdx) ≠ 2#5 ∧ (1#5 : RegIdx) ≠ 0#5 ∧ (1#5 : RegIdx) ≠ 2#5 := by
  decide

/-- A state for each clause; the overflow case is in the second alone. -/
theorem test_witness_DivisionLaw :
    readReg (acc 0x80000000 1) 2 ≠ 0x00000000#32 ∧
    ¬ (readReg (acc 0x80000000 1) 1 = 0x80000000#32 ∧ readReg (acc 0x80000000 1) 2 = 0xFFFFFFFF#32) ∧
    readReg (acc 0x80000000 0xFFFFFFFF) 2 ≠ 0x00000000#32 ∧ readReg (acc 5 0) 2 = 0x00000000#32 := by
  decide

theorem test_witness_ReconstructionLaws :
    readReg (acc 0x80000000 1) 2 ≠ 0x00000000#32 ∧
    ¬ ((readReg (acc 0x80000000 1) 1).toInt = -2 ^ 31 ∧ (readReg (acc 0x80000000 1) 2).toInt = -1) := by
  decide

theorem test_witness_BranchesCompareAndJump :
    (st 0x104 []).pc = 0x100#32 + 4#32 ∧ (st 0 []).pc = 0xFFFFFFFC#32 + 4#32 := by
  decide

theorem test_witness_JumpGoesToThePseudoDirectTarget :
    (st 0x10000000 []).pc = 0x0FFFFFFC#32 + 4#32 := by
  decide

/-- A call of address 8, where JR of register 31 stands. -/
theorem test_witness_CallAndReturnResumeAtPlusEight :
    (8#32 : Word) = ((((prog [0x0C000002, 0x20420064, 0x03E00008] 0 []).pc + 4#32) &&& 0xF0000000#32) ||| ((2#26 : BitVec 26).setWidth 32 <<< 2)) ∧
    fetchWord (prog [0x0C000002, 0x20420064, 0x03E00008] 0 []) ((prog [0x0C000002, 0x20420064, 0x03E00008] 0 []).pc.toNat / 4) = some (encJ 0x03#6 2#26) ∧
    fetchWord (prog [0x0C000002, 0x20420064, 0x03E00008] 0 []) ((8#32 : Word).toNat / 4) = some 0x03E00008#32 := by
  decide

theorem test_witness_JalLinksPlusEight :
    (st 8 []).pc = 4#32 + 4#32 ∧ (30#5 : RegIdx) ≠ 31#5 := by
  decide

/-- The ends of every range of `li` (ADDIU for 32767 is the choice of log 13), and a state at address 0x100. -/
theorem test_witness_PseudoInstructionsAndLabels :
    Pseudo.li 4 (-32768) = some (.addiu 0 4 0x8000) ∧ Pseudo.li 4 32767 = some (.addiu 0 4 0x7FFF) ∧
    Pseudo.li 4 32768 = some (.ori 0 4 0x8000) ∧ Pseudo.li 4 65535 = some (.ori 0 4 0xFFFF) ∧
    Pseudo.li 4 (-32769) = none ∧ Pseudo.li 4 65536 = none ∧ (st 0x104 []).pc = 0x100#32 + 4#32 := by
  decide

end Sys2Proof.Tests
end

section
/-! PROOFS. Each extension is the value with a high half put before it (spec/00_scope.md R12), as the library says of
widening by sign and by zeros; the two halves of the result are then the two parts of that concatenation. -/

namespace Sys2Proof

/-- R12: `sext_32` puts a half of copies of the sign bit before the value. -/
theorem sext32_eq_append (v : BitVec 16) :
    sext32 v = (if v.getLsbD 15 = true then 0xFFFF#16 else 0x0000#16) ++ v := by
  have happend := BitVec.signExtend_eq_append_of_le (x := v) (show 16 ≤ 32 by decide)
  rwa [v.msb_eq_getLsbD_last] at happend

/-- R12: `zext_32` puts a half of zeros before the value. -/
theorem zext32_eq_append (v : BitVec 16) : zext32 v = 0x0000#16 ++ v :=
  BitVec.setWidth_eq_append (by decide)

/-- R12: `sext_64` puts a half of copies of the sign bit before the value. -/
theorem sext64_eq_append (v : Word) :
    sext64 v = (if v.getLsbD 31 = true then 0xFFFFFFFF#32 else 0x00000000#32) ++ v := by
  have happend := BitVec.signExtend_eq_append_of_le (x := v) (show 32 ≤ 64 by decide)
  rwa [v.msb_eq_getLsbD_last] at happend

/-- R12: `zext_64` puts a half of zeros before the value. -/
theorem zext64_eq_append (v : Word) : zext64 v = 0x00000000#32 ++ v :=
  BitVec.setWidth_eq_append (by decide)

/-- Settles O59: each extension is a concatenation, and its halves are the two parts. -/
theorem extensionsReplicateOrPad : Obligations.ExtensionsReplicateOrPad := by
  unfold Obligations.ExtensionsReplicateOrPad
  refine ⟨fun v => ?_, fun v => ?_⟩
  · rw [sext32_eq_append, zext32_eq_append]
    simp only [BitVec.extractLsb'_append_eq_left, BitVec.extractLsb'_append_eq_right, and_self]
  · rw [sext64_eq_append, zext64_eq_append]
    simp only [BitVec.extractLsb'_append_eq_left, BitVec.extractLsb'_append_eq_right, and_self]

end Sys2Proof
end

section
/-! PROOFS. A decoded word is the word of one instruction, so that a step on it runs that instruction's handler
(spec/30_encoding.md R83, spec/40_dispatch.md R95–R99). -/

namespace Sys2Proof

/-! ### Words from their fields -/

theorem encR_fields {w : Word} (hop : opcodeField w = 0#6) :
    encR (rsField w) (rtField w) (rdField w) (shamtField w) (functField w) = w := by
  rw [encR_eq_append, ← hop]
  apply BitVec.eq_of_getLsbD_eq
  intro i hi
  simp only [opcodeField, rsField, rtField, rdField, shamtField, functField, BitVec.getLsbD_extractLsb',
    BitVec.getLsbD_cast, BitVec.getLsbD_append]
  interval_cases i <;> simp

theorem encI_fields (w : Word) : encI (opcodeField w) (rsField w) (rtField w) (immediateField w) = w := by
  rw [encI_eq_append]
  apply BitVec.eq_of_getLsbD_eq
  intro i hi
  simp only [opcodeField, rsField, rtField, immediateField, BitVec.getLsbD_extractLsb',
    BitVec.getLsbD_cast, BitVec.getLsbD_append]
  interval_cases i <;> simp

theorem encJ_fields (w : Word) : encJ (opcodeField w) (addressField w) = w := by
  rw [encJ_eq_append]
  apply BitVec.eq_of_getLsbD_eq
  intro i hi
  simp only [opcodeField, addressField, BitVec.getLsbD_extractLsb', BitVec.getLsbD_cast, BitVec.getLsbD_append]
  interval_cases i <;> simp

/-! ### The decoder's answers -/

/-- A decoded record assembles to the word it came from. -/
theorem encodeRecord_of_decode {w : Word} {d : Record} (h : decode w = .ok d) : encodeRecord d = w := by
  rcases decode_ok_cases h with ⟨f, -, hop, hfn, rfl⟩ | ⟨o, -, hop, rfl⟩ | ⟨o, -, hop, rfl⟩
  · rw [encodeRecord, ← hfn]; exact encR_fields hop
  · rw [encodeRecord, ← hop]; exact encJ_fields w
  · rw [encodeRecord, ← hop]; exact encI_fields w

/-- The dispatch tables have an entry for every record the decoder gives on this hardware. -/
theorem toInstr_isSome_of_decode {w : Word} {d : Record} (h : decode w = .ok d) : d.toInstr.isSome := by
  rcases decode_ok_cases h with ⟨f, hf, -, -, rfl⟩ | ⟨o, ho, -, rfl⟩ | ⟨o, ho, -, rfl⟩
  · cases f with
    | extra c => simp [Funct.members] at hf
    | _ => rfl
  · cases o <;> cases ho <;> rfl
  · cases o <;> cases ho <;> rfl

/-- An instruction the tables select has the record it was selected by. -/
theorem toRecord_of_toInstr {d : Record} {i : Instr} (h : d.toInstr = some i) : i.toRecord = d := by
  cases d with
  | r rs rt rd shamt f => cases f <;> cases h <;> rfl
  | i o rs rt imm => cases o <;> cases h <;> rfl
  | j o address => cases o <;> cases h <;> rfl

/-- A word with opcode zero and the funct of one of the 18 decodes to an R record of its fields. -/
theorem decode_of_funct {w : Word} {f : Funct} (hf : f ∈ Funct.members) (hop : opcodeField w = 0#6)
    (hfn : functField w = f.code) :
    decode w = .ok (.r (rsField w) (rtField w) (rdField w) (shamtField w) f) := by
  have hr : Opcode.ofCode 0#6 = some .rType := rfl
  simp only [decode, decodeWith, hop, hr, Opcode.format, hfn, Funct.ofCodeWith_code _ f hf]

/-- A word with a J-format opcode decodes to a J record of its address. -/
theorem decode_of_jFormat {w : Word} {o : Opcode} (ho : o.format = .J) (hop : opcodeField w = o.code) :
    decode w = .ok (.j o (addressField w)) := by
  simp only [decode, decodeWith, hop, Opcode.ofCode_code, ho]

end Sys2Proof

namespace Sys2Proof.Machine

theorem coreStep_of_instr {w : Word} {d : Record} {i : Instr} (hd : decode w = .ok d) (hi : d.toInstr = some i)
    (s : State) : coreStep w s = exec i (advancePc s) :=
  (coreStep_of_ok hd s).trans (dispatch_of_some hi _)

/-- The core's step either reports a word that does not decode, or is the handler of the instruction whose word it is,
in the advanced state. -/
theorem coreStep_cases (w : Word) (s : State) :
    (∃ f, coreStep w s = reportOnly (advancePc s) (.decodeFailure f)) ∨
    (∃ i, encode i = w ∧ coreStep w s = exec i (advancePc s)) := by
  cases hd : decode w with
  | error f => exact .inl ⟨f, coreStep_of_error hd s⟩
  | ok d =>
    obtain ⟨i, hi⟩ := Option.isSome_iff_exists.mp (toInstr_isSome_of_decode hd)
    refine .inr ⟨i, ?_, coreStep_of_instr hd hi s⟩
    rw [encode, toRecord_of_toInstr hi, encodeRecord_of_decode hd]

end Sys2Proof.Machine
end

section
/-! PROOFS. What an instruction does, as data: a register written or none, the accumulators written or not, pc written or
not, and the report. `exec_effect` is the one split over the instructions: the effect keeps within the instruction's
footprint, and is the same in every state that agrees on what the instruction reads. -/

namespace Sys2Proof.Machine

/-! ### The footprint of an instruction -/

/-- The general register an instruction writes, none where it writes none (R23). -/
def destination (i : Instr) : Option RegIdx :=
  match i with
  | .sll _ _ rd _ | .srl _ _ rd _ | .mfhi _ _ rd _ | .mflo _ _ rd _ | .add _ _ rd _ | .addu _ _ rd _
  | .sub _ _ rd _ | .subu _ _ rd _ | .and _ _ rd _ | .or _ _ rd _ | .nor _ _ rd _ | .slt _ _ rd _
  | .sltu _ _ rd _ => some rd
  | .addi _ rt _ | .addiu _ rt _ | .slti _ rt _ | .sltiu _ rt _ | .andi _ rt _ | .ori _ rt _ => some rt
  | .jal _ => some Config.linkRegister
  | _ => none

/-- The instructions that may write `hi` and `lo` (R25, R26). -/
def mayWriteHiLo (i : Instr) : Bool :=
  match i with
  | .mult _ _ _ _ | .multu _ _ _ _ | .div _ _ _ _ | .divu _ _ _ _ => true
  | _ => false

/-- The instructions that may write pc after the advance (R27). -/
def mayWritePc (i : Instr) : Bool :=
  match i with
  | .jr _ _ _ _ | .beq _ _ _ | .bne _ _ _ | .j _ | .jal _ => true
  | _ => false

/-- The instructions that read `hi` or `lo` (R25). -/
def readsHiLo (i : Instr) : Bool :=
  match i with
  | .mfhi _ _ _ _ | .mflo _ _ _ _ => true
  | _ => false

/-- `s'` agrees with `s` on what `i` reads: its source registers (R24), pc, and where it reads them the accumulators. -/
def ReadsAlike (i : Instr) (s s' : State) : Prop :=
  (∀ r ∈ sources i, readReg s' r = readReg s r) ∧ s'.pc = s.pc ∧ (readsHiLo i → s'.hi = s.hi ∧ s'.lo = s.lo)

theorem ReadsAlike.refl (i : Instr) (s : State) : ReadsAlike i s s :=
  ⟨fun _ _ => rfl, rfl, fun _ => ⟨rfl, rfl⟩⟩

/-! ### Effects -/

/-- What a handler writes, each part none where it writes nothing there, and the report. -/
structure Effect where
  reg : Option (RegIdx × Word)
  hiLo : Option (Word × Word)
  target : Option Word
  report : Report

namespace Effect

/-- The state with the effect's writes and its report. -/
def apply (e : Effect) (s : State) : State :=
  let s₁ := match e.target with
    | some p => setPc s p
    | none => s
  let s₂ := match e.hiLo with
    | some (h, l) => setHiLo s₁ h l
    | none => s₁
  let s₃ := match e.reg with
    | some (r, v) => writeReg s₂ r v
    | none => s₂
  raise s₃ e.report

/-- The effect writes nothing outside the footprint of `i`. -/
structure Within (e : Effect) (i : Instr) : Prop where
  reg : e.reg.map Prod.fst = destination i
  hiLo : e.hiLo.isSome → mayWriteHiLo i
  target : e.target.isSome → mayWritePc i

/-- What the effect leaves in register `q`, none where `q` is kept; register 0 is always kept (R21). -/
def written (e : Effect) (q : RegIdx) : Option Word :=
  match e.reg with
  | some (r, v) => if q = r ∧ q ≠ 0#5 then some v else none
  | none => none

@[simp] theorem apply_hi (e : Effect) (s : State) : (e.apply s).hi = (e.hiLo.map Prod.fst).getD s.hi := by
  rcases e with ⟨_ | _, _ | _, _ | _, _⟩ <;> simp [apply]

@[simp] theorem apply_lo (e : Effect) (s : State) : (e.apply s).lo = (e.hiLo.map Prod.snd).getD s.lo := by
  rcases e with ⟨_ | _, _ | _, _ | _, _⟩ <;> simp [apply]

@[simp] theorem apply_pc (e : Effect) (s : State) : (e.apply s).pc = e.target.getD s.pc := by
  rcases e with ⟨_ | _, _ | _, _ | _, _⟩ <;> simp [apply]

@[simp] theorem apply_program (e : Effect) (s : State) : (e.apply s).program = s.program := by
  rcases e with ⟨_ | _, _ | _, _ | _, _⟩ <;> simp [apply]

@[simp] theorem apply_history (e : Effect) (s : State) : (e.apply s).history = e.report :: s.history := by
  rcases e with ⟨_ | _, _ | _, _ | _, _⟩ <;> simp [apply]

@[simp] theorem apply_x_zero (e : Effect) (s : State) : (e.apply s).x[0] = s.x[0] := by
  rcases e with ⟨_ | _, _ | _, _ | _, _⟩ <;> simp [apply, writeReg_x_zero]

@[simp] theorem readReg_apply (e : Effect) (s : State) (q : RegIdx) :
    readReg (e.apply s) q = (e.written q).getD (readReg s q) := by
  obtain ⟨_ | ⟨r, v⟩, hiLo, target, report⟩ := e
  · cases hiLo <;> cases target <;> simp [apply, written]
  · have hwritten : (written ⟨some (r, v), hiLo, target, report⟩ q).getD (readReg s q) =
        if q = r ∧ q ≠ 0#5 then v else readReg s q := by
      rw [written, apply_ite (Option.getD · _)]; rfl
    rw [hwritten]
    cases hiLo <;> cases target <;> simp [apply, readReg_writeReg]

/-- A register the effect writes is the destination of every instruction whose footprint it keeps to. -/
theorem Within.destination_of_written {e : Effect} {i : Instr} (h : e.Within i) {q : RegIdx}
    (hq : e.written q ≠ none) : destination i = some q := by
  rw [← h.reg]
  unfold written at hq
  split at hq
  · next r v hr =>
    rw [hr]
    split at hq
    · next hqr => rw [hqr.1]; rfl
    · exact absurd rfl hq
  · exact absurd rfl hq

end Effect
/-! ### The effect of a handler -/

theorem branchResult_eq_next (s : State) (taken : Bool) (imm : BitVec 16) :
    branchResult s taken imm =
      .next (Effect.apply ⟨none, none, if taken then some (branchTarget s imm) else none, .ok⟩ s) := by
  cases taken <;> rfl

theorem divisionResult_eq_next (s : State) (o : Option (Word × Word)) :
    divisionResult s o = .next (Effect.apply ⟨none, o, none, if o.isSome then .ok else .divideByZero⟩ s) := by
  cases o <;> rfl

/-- An effect given as a function of the state is one effect for all states that agree on what the function reads. -/
theorem exists_effect {i : Instr} {s : State} (f : State → Effect)
    (hexec : ∀ s', exec i s' = .next ((f s').apply s')) (hwithin : (f s).Within i)
    (hreads : ∀ s', ReadsAlike i s s' → f s' = f s) :
    ∃ e : Effect, e.Within i ∧ ∀ s', ReadsAlike i s s' → exec i s' = .next (e.apply s') :=
  ⟨f s, hwithin, fun s' h => by rw [hexec, hreads s' h]⟩

/-- A handler writes within its instruction's footprint, and does the same in every state that agrees on what the
instruction reads. The cases are the shapes of the handlers: a default handler, a multiply, a divide, a branch, a jump,
JAL, and at the end the instructions that write a register and nothing else. -/
theorem exec_effect (i : Instr) (s : State) :
    ∃ e : Effect, e.Within i ∧ ∀ s', ReadsAlike i s s' → exec i s' = .next (e.apply s') := by
  cases i
  case lui | lw | lbu | lhu | sb | sh | sw | ll | sc =>
    exact exists_effect (fun _ => ⟨none, none, none, _⟩) (fun _ => rfl) ⟨rfl, nofun, nofun⟩ fun _ _ => rfl
  case mult | multu =>
    exact exists_effect (fun s => ⟨none, some (_, _), none, .ok⟩) (fun _ => rfl) ⟨rfl, fun _ => rfl, nofun⟩
      (by simp +contextual [ReadsAlike, sources])
  case div | divu =>
    exact exists_effect (fun s => ⟨none, _, none, _⟩) (fun s => divisionResult_eq_next s _) ⟨rfl, fun _ => rfl, nofun⟩
      (by simp +contextual [ReadsAlike, sources])
  case beq | bne =>
    exact exists_effect (fun s => ⟨none, none, _, .ok⟩) (fun s => branchResult_eq_next s _ _)
      ⟨rfl, nofun, fun _ => rfl⟩ (by simp +contextual [ReadsAlike, sources, branchTarget])
  case jr | j =>
    exact exists_effect (fun s => ⟨none, none, some _, .ok⟩) (fun _ => rfl)
      ⟨rfl, nofun, fun _ => rfl⟩ (by simp +contextual [ReadsAlike, sources, jumpTarget])
  case jal =>
    exact exists_effect (fun s => ⟨some (_, _), none, some _, .ok⟩) (fun _ => rfl)
      ⟨rfl, nofun, fun _ => rfl⟩ (by simp +contextual [ReadsAlike, jumpTarget, linkAddress])
  all_goals
    exact exists_effect (fun s => ⟨some (_, _), none, none, .ok⟩) (fun _ => rfl) ⟨rfl, nofun, nofun⟩
      (by simp +contextual [ReadsAlike, readsHiLo, sources])

/-- The next state of a handler is an effect within its instruction's footprint. -/
theorem exec_next {i : Instr} {s t : State} (h : exec i s = .next t) : ∃ e : Effect, e.Within i ∧ t = e.apply s := by
  obtain ⟨e, hwithin, hexec⟩ := exec_effect i s
  exact ⟨e, hwithin, Host.Outcome.next.inj (h.symm.trans (hexec s (.refl i s)))⟩

/-- The next state of the core's step: the report of a word that does not decode, or the handler's effect, for the
instruction whose word it is. -/
theorem coreStep_next_cases {w : Word} {s t : State} (h : coreStep w s = .next t) :
    (∃ f, t = raise (advancePc s) (.decodeFailure f)) ∨
    (∃ i e, encode i = w ∧ exec i (advancePc s) = .next t ∧ Effect.Within e i ∧ t = e.apply (advancePc s)) := by
  rcases coreStep_cases w s with ⟨f, hf⟩ | ⟨i, hi, hexec⟩
  · exact .inl ⟨f, (Host.Outcome.next.inj (hf.symm.trans h)).symm⟩
  · obtain ⟨e, hwithin, ht⟩ := exec_next (hexec.symm.trans h)
    exact .inr ⟨i, e, hi, hexec.symm.trans h, hwithin, ht⟩

end Sys2Proof.Machine
end

section
/-! PROOFS. What every step keeps and what it may write (spec/10_state.md R21–R38). -/

namespace Sys2Proof.Machine

/-! ### The invariant -/

/-- The core's step keeps register 0's storage and the program array. -/
theorem coreStep_keeps {w : Word} {s t : State} (h : coreStep w s = .next t) :
    t.x[0] = s.x[0] ∧ t.program = s.program := by
  rcases coreStep_next_cases h with ⟨f, rfl⟩ | ⟨i, e, -, -, -, rfl⟩ <;> simp

theorem inv_of_coreStep {w : Word} {s t : State} (hs : Inv s) (h : coreStep w s = .next t) : Inv t := by
  obtain ⟨hx, hprogram⟩ := coreStep_keeps h
  rw [Inv, hx, hprogram]
  exact hs

theorem inv_applyReset {s : State} (hs : Inv s) : Inv (applyReset s) := by
  obtain ⟨-, hprogram⟩ := hs
  exact ⟨by simp, applyReset_wf s hprogram⟩

/-- Settles O24: the reset state's registers are zero and its program array is empty. -/
theorem invariantHoldsAtReset : Obligations.InvariantHoldsAtReset :=
  ⟨by simp [State.reset], reset_program_wf⟩

/-- A step that answers a next state is the core's step on the fetched word. -/
theorem coreStep_of_step {s t : State} (h : step s = .next t) : ∃ w, fetch s = some w ∧ coreStep w s = .next t := by
  cases hf : fetch s with
  | none => rw [step_of_fetch_none hf] at h; cases h
  | some w => exact ⟨w, rfl, (step_of_fetch_some hf).symm.trans h⟩

/-- Settles O25: a step is the core's step on some word, and that keeps both halves of the invariant. -/
theorem stepKeepsTheInvariant : Obligations.StepKeepsTheInvariant := by
  unfold Obligations.StepKeepsTheInvariant
  refine ⟨fun s t hs h => ?_, fun e s t hs h => ?_⟩
  · obtain ⟨w, -, hw⟩ := coreStep_of_step h
    exact inv_of_coreStep hs hw
  · cases e with
    | reset => cases h; exact inv_applyReset hs
    | step w => exact inv_of_coreStep hs h

/-! ### Which words write the general registers -/

/-- The words of the instructions with a destination: the lists of R23. -/
theorem word_of_destination {i : Instr} {q : RegIdx} (h : destination i = some q) :
    (opcodeField (encode i) = 0x00#6 ∧ q = rdField (encode i) ∧
      functField (encode i) ∈ [0x20#6, 0x21#6, 0x22#6, 0x23#6, 0x24#6, 0x25#6, 0x27#6, 0x2A#6, 0x2B#6, 0x00#6, 0x02#6,
        0x10#6, 0x12#6]) ∨
    (opcodeField (encode i) ∈ [0x08#6, 0x09#6, 0x0A#6, 0x0B#6, 0x0C#6, 0x0D#6] ∧ q = rtField (encode i)) ∨
    (opcodeField (encode i) = 0x03#6 ∧ q = 31#5) := by
  cases i <;> cases h
  case jal =>
    exact .inr (.inr ⟨(fields_encJ _ _).1, rfl⟩)
  case addi | addiu | slti | sltiu | andi | ori =>
    exact .inr (.inl (by simp [encode, Instr.toRecord, encodeRecord, fields_encI, Opcode.code]))
  all_goals
    exact .inl (by simp [encode, Instr.toRecord, encodeRecord, fields_encR, Funct.code])

/-- Settles O28: a register that changes is written by the handler's effect, so it is its instruction's destination. -/
theorem onlyListedInstructionsWriteRegisters : Obligations.OnlyListedInstructionsWriteRegisters := by
  unfold Obligations.OnlyListedInstructionsWriteRegisters
  intro s t w q hf hstep hne
  rw [step_of_fetch_some hf] at hstep
  rcases coreStep_next_cases hstep with ⟨f, rfl⟩ | ⟨i, e, rfl, -, hwithin, rfl⟩
  · simp at hne
  · have hwritten : e.written q ≠ none := fun hnone => by simp [hnone] at hne
    exact word_of_destination (hwithin.destination_of_written hwritten)

/-! ### What an instruction reads -/

/-- Settles O31: both runs have one effect, and a register it does not write is kept in both. -/
theorem onlySourceRegistersAreRead : Obligations.OnlySourceRegistersAreRead := by
  unfold Obligations.OnlySourceRegistersAreRead
  intro i s q v hq
  obtain ⟨e, -, hexec⟩ := exec_effect i s
  have hkept {r : RegIdx} (hr : r ≠ q) : readReg (writeReg s q v) r = readReg s r := by simp [readReg_writeReg, hr]
  have halike : ReadsAlike i s (writeReg s q v) :=
    ⟨fun r hr => hkept fun heq => hq (heq ▸ hr), by simp, by simp⟩
  refine ⟨_, _, hexec s (.refl i s), hexec _ halike, fun r hr => ?_, ?_, ?_⟩
  · simp [hkept hr]
  · cases hw : e.written q with
    | some u => left; simp [hw]
    | none => right; simp [hw]
  · simp

theorem readsHiLo_eq_false {i : Instr}
    (h : ∀ rs rt rd shamt, i ≠ .mfhi rs rt rd shamt ∧ i ≠ .mflo rs rt rd shamt) : readsHiLo i = false := by
  cases i
  case mfhi rs rt rd shamt => exact absurd rfl (h rs rt rd shamt).1
  case mflo rs rt rd shamt => exact absurd rfl (h rs rt rd shamt).2
  all_goals rfl

/-- Settles O30: both runs have one effect, which writes both accumulators or keeps both. -/
theorem onlyMovesReadAccumulators : Obligations.OnlyMovesReadAccumulators := by
  unfold Obligations.OnlyMovesReadAccumulators
  intro i s h l hi
  obtain ⟨e, -, hexec⟩ := exec_effect i s
  have halike : ReadsAlike i s (setHiLo s h l) :=
    ⟨fun r _ => readReg_setHiLo s h l r, rfl, by simp [readsHiLo_eq_false hi]⟩
  refine ⟨_, _, hexec s (.refl i s), hexec _ halike, fun q => ?_, ?_, ?_, ?_⟩
  · simp
  · simp
  · simp
  · cases hw : e.hiLo with
    | some p => left; simp [hw]
    | none => right; simp [hw]

/-! ### Which words write the accumulators -/

theorem word_of_mayWriteHiLo {i : Instr} (h : mayWriteHiLo i = true) :
    opcodeField (encode i) = 0x00#6 ∧
      (functField (encode i) ∈ [0x18#6, 0x19#6] ∨ functField (encode i) ∈ [0x1A#6, 0x1B#6]) := by
  cases i <;> cases h
  all_goals simp [encode, Instr.toRecord, encodeRecord, fields_encR, Funct.code]

@[simp] theorem divSigned_zero (a : Word) : divSigned a 0#32 = none := rfl
@[simp] theorem divUnsigned_zero (a : Word) : divUnsigned a 0#32 = none := rfl

/-- A word of DIV or DIVU whose divisor register holds zero only reports (R26). -/
theorem coreStep_of_zero_divisor {w : Word} {s : State} (hop : opcodeField w = 0x00#6)
    (hfn : functField w ∈ [0x1A#6, 0x1B#6]) (hrt : readReg s (rtField w) = 0#32) :
    coreStep w s = reportOnly (advancePc s) .divideByZero := by
  simp only [List.mem_cons, List.not_mem_nil, or_false] at hfn
  rcases hfn with hfn | hfn
  · rw [coreStep_of_instr (decode_of_funct (f := .div) (by decide) hop hfn) rfl]
    simp [exec, execDiv, hrt, divisionResult]
  · rw [coreStep_of_instr (decode_of_funct (f := .divu) (by decide) hop hfn) rfl]
    simp [exec, execDivu, hrt, divisionResult]

/-- Settles O29: only the words of multiply and divide have the accumulators in their footprint, and a zero divisor only
reports. -/
theorem onlyMultiplyAndDivideWriteAccumulators : Obligations.OnlyMultiplyAndDivideWriteAccumulators := by
  unfold Obligations.OnlyMultiplyAndDivideWriteAccumulators
  intro s t w hf hstep
  rw [step_of_fetch_some hf] at hstep
  have hzero (hop : opcodeField w = 0x00#6) (hfn : functField w ∈ [0x1A#6, 0x1B#6])
      (hrt : readReg s (rtField w) = 0#32) : t.hi = s.hi ∧ t.lo = s.lo ∧ Reports s t .divideByZero := by
    cases (coreStep_of_zero_divisor hop hfn hrt).symm.trans hstep
    exact ⟨rfl, rfl, reports_of_eq rfl⟩
  refine ⟨fun hne => ?_, hzero⟩
  have hword : opcodeField w = 0x00#6 ∧ (functField w ∈ [0x18#6, 0x19#6] ∨ functField w ∈ [0x1A#6, 0x1B#6]) := by
    rcases coreStep_next_cases hstep with ⟨f, rfl⟩ | ⟨i, e, rfl, -, hwithin, rfl⟩
    · simp at hne
    · cases hw : e.hiLo with
      | none => simp [hw] at hne
      | some p => exact word_of_mayWriteHiLo (hwithin.hiLo (by simp [hw]))
  obtain ⟨hop, hmul | hdiv⟩ := hword
  · exact ⟨hop, .inl hmul⟩
  · refine ⟨hop, .inr ⟨hdiv, fun hrt => ?_⟩⟩
    obtain ⟨hhi, hlo, -⟩ := hzero hop hdiv hrt
    exact hne.elim (absurd hhi) (absurd hlo)

/-! ### The low bits of pc -/

/-- Adding a multiple of 4 keeps the low two bits. -/
theorem lowBits_add {p d : Word} (hd : d.extractLsb' 0 2 = 0#2) : (p + d).extractLsb' 0 2 = p.extractLsb' 0 2 := by
  simp only [← BitVec.setWidth_eq_extractLsb' (show 2 ≤ 32 by decide)] at hd ⊢
  rw [BitVec.setWidth_add _ _ (by decide), hd, BitVec.add_zero]

theorem lowBits_branchOffset (imm : BitVec 16) : (branchOffset imm).extractLsb' 0 2 = 0#2 := by
  apply BitVec.eq_of_getLsbD_eq
  intro k hk
  interval_cases k <;> simp [branchOffset]

theorem lowBits_jumpTarget (s : State) (a : BitVec 26) : (jumpTarget s a).extractLsb' 0 2 = 0#2 := by
  apply BitVec.eq_of_getLsbD_eq
  intro k hk
  interval_cases k <;> simp [jumpTarget]

theorem lowBits_branchResult {s t : State} {taken : Bool} {imm : BitVec 16} (h : branchResult s taken imm = .next t) :
    t.pc.extractLsb' 0 2 = s.pc.extractLsb' 0 2 := by
  cases taken <;> cases h
  · rfl
  · exact lowBits_add (lowBits_branchOffset imm)

/-- A handler of none of the jumps keeps the low bits of pc. -/
theorem lowBits_exec {i : Instr} {s t : State} (h : exec i s = .next t)
    (hj : opcodeField (encode i) ∉ [0x02#6, 0x03#6])
    (hjr : ¬ (opcodeField (encode i) = 0x00#6 ∧ functField (encode i) = 0x08#6)) :
    t.pc.extractLsb' 0 2 = s.pc.extractLsb' 0 2 := by
  obtain ⟨e, hwithin, rfl⟩ := exec_next h
  cases htarget : e.target with
  | none => simp [htarget]
  | some p =>
    have hmay := hwithin.target (by simp [htarget])
    cases i
    case jr => exact absurd (by simp [encode, Instr.toRecord, encodeRecord, fields_encR, Funct.code]) hjr
    case beq | bne => exact lowBits_branchResult h
    case j | jal => exact absurd (by simp [encode, Instr.toRecord, encodeRecord, fields_encJ, Opcode.code]) hj
    all_goals cases hmay

/-- Settles O33: a jump target is a multiple of 4, JR copies its register, and what every other step adds to pc is a
multiple of 4. -/
theorem pcLowBitsChangeOnlyByJumps : Obligations.PcLowBitsChangeOnlyByJumps := by
  unfold Obligations.PcLowBitsChangeOnlyByJumps
  intro s t w hf hstep
  rw [step_of_fetch_some hf] at hstep
  refine ⟨fun hop => ?_, fun hj hjr => ?_, fun hop hfn => ?_⟩
  · simp only [List.mem_cons, List.not_mem_nil, or_false] at hop
    rcases hop with hop | hop
    · rw [coreStep_of_instr (decode_of_jFormat (o := .j) rfl hop) rfl] at hstep
      cases hstep
      exact lowBits_jumpTarget _ _
    · rw [coreStep_of_instr (decode_of_jFormat (o := .jal) rfl hop) rfl] at hstep
      cases hstep
      exact lowBits_jumpTarget _ _
  · have hadvance : (advancePc s).pc.extractLsb' 0 2 = s.pc.extractLsb' 0 2 := lowBits_add rfl
    rw [← hadvance]
    rcases coreStep_next_cases hstep with ⟨f, rfl⟩ | ⟨i, e, rfl, hexec, -, -⟩
    · rfl
    · exact lowBits_exec hexec hj hjr
  · rw [coreStep_of_instr (decode_of_funct (f := .jr) (by decide) hop hfn) rfl] at hstep
    cases hstep
    rfl

/-! ### Register 0, and the outputs -/

/-- With the flag false, a read after a write is the value written at the register written, register 0 included. -/
theorem readRegWith_false_writeRegWith_false (s : State) (r q : RegIdx) (v : Word) :
    readRegWith false (writeRegWith false s r v) q = if q = r then v else readRegWith false s q := by
  simp only [readRegWith, writeRegWith, Bool.false_and, Bool.false_eq_true, if_false, Vector.getElem_set,
    BitVec.toNat_inj, eq_comm]

/-- Settles O11: the read-after-write rule of each configuration, at the same and at another register. -/
theorem registerZeroIsHardwired : Obligations.RegisterZeroIsHardwired := by
  unfold Obligations.RegisterZeroIsHardwired
  refine ⟨rfl, readReg_zero, fun _ _ => rfl, fun s r v hr => ?_, fun s r q v hq => ?_,
    readRegWith_false_writeRegWith_false, fun q => ?_⟩
  · simp [readReg_writeReg, hr]
  · simp [readReg_writeReg, hq]
  · simp [readRegWith, State.reset]

/-- Settles O14: every output is read off the state as it stands. -/
theorem outputsAreTheState : Obligations.OutputsAreTheState := by
  unfold Obligations.OutputsAreTheState
  refine fun s => ⟨rfl, rfl, rfl, fun i => ?_, ?_, rfl, rfl, fun w hw => step_of_fetch_some hw⟩
  · simp [outputs]
  · simp [outputs]

end Sys2Proof.Machine
end

section
/-! PROOFS. The program array: which word a step fetches, where a step answers a next state, and that no run writes the
array (spec/20_memory.md R41, R42, R53). -/

namespace Sys2Proof.Machine

/-! ### The fetch -/

theorem toNat_fetchIndex (s : State) : (fetchIndex s).toNat = s.pc.toNat / 4 := by
  have hpc : s.pc.toNat < 2 ^ 32 := s.pc.isLt
  rw [fetchIndex, BitVec.extractLsb'_toNat, Nat.shiftRight_eq_div_pow]
  omega

theorem fetch_eq_fetchWord (s : State) : fetch s = fetchWord s (s.pc.toNat / 4) :=
  congrArg (fetchWord s) (toNat_fetchIndex s)

/-- A fetch reads the program array and `pc[31:2]`, and nothing else. -/
theorem fetch_congr {s t : State} (hprogram : t.program = s.program) (hindex : fetchIndex t = fetchIndex s) :
    fetch t = fetch s := by
  rw [fetch, fetch, fetchWord, fetchWord, hprogram, hindex]

/-- Settles O16: taking `pc[31:2]` is division by 4, and the array is the only other thing a fetch reads. -/
theorem fetchIndexIsFloorOfPc : Obligations.FetchIndexIsFloorOfPc := by
  unfold Obligations.FetchIndexIsFloorOfPc
  exact fun s => ⟨toNat_fetchIndex s, fetch_eq_fetchWord s, fun _ hp => fetch_congr rfl hp⟩

/-! ### Where a step answers a next state -/

/-- The core's step answers a next state for every word: its report of a decode failure, or the handler's effect. -/
theorem coreStep_exists_next (w : Word) (s : State) : ∃ t, coreStep w s = .next t := by
  rcases coreStep_cases w s with ⟨f, hreport⟩ | ⟨i, -, hexec⟩
  · exact ⟨_, hreport⟩
  · obtain ⟨e, -, heffect⟩ := exec_effect i (advancePc s)
    exact ⟨_, hexec.trans (heffect _ (.refl i _))⟩

/-- Settles O17: the fetch finds a word exactly where pc / 4 is inside the array, and the core's step always answers. -/
theorem stepAnswersExactlyInsideTheArray : Obligations.StepAnswersExactlyInsideTheArray := by
  unfold Obligations.StepAnswersExactlyInsideTheArray
  intro s
  have hnone : fetch s = none ↔ programLength s ≤ s.pc.toNat / 4 := by rw [fetch_eq_none_iff, toNat_fetchIndex]
  refine ⟨fun hinside => ?_, fun houtside => step_of_fetch_none (hnone.mpr houtside)⟩
  cases hf : fetch s with
  | none => exact absurd (hnone.mp hf) (Nat.not_le.mpr hinside)
  | some w => rw [step_of_fetch_some hf]; exact coreStep_exists_next w s

/-! ### Runs -/

/-- A machine's run of `n + 1` steps that answers a next state is a step followed by a run of `n` steps. -/
theorem run_succ_next {M : Host.Core} {n : Nat} {s t : M.State} (h : M.run (n + 1) s = .next t) :
    ∃ u, M.step s = .next u ∧ M.run n u = .next t := by
  rw [Host.Core.run] at h
  split at h
  · next u hu => exact ⟨u, hu, h⟩
  · cases h
  · cases h

/-- A property that every step of a machine keeps is kept by every run of it. -/
theorem run_keeps {M : Host.Core} {P : M.State → Prop} (hstep : ∀ {s t}, M.step s = .next t → P s → P t)
    {n : Nat} {s t : M.State} (h : M.run n s = .next t) (hs : P s) : P t := by
  induction n generalizing s with
  | zero => cases h; exact hs
  | succ n ih =>
    obtain ⟨u, hu, hrun⟩ := run_succ_next h
    exact ih hrun (hstep hu hs)

theorem step_program {s t : State} (h : step s = .next t) : t.program = s.program := by
  obtain ⟨w, -, hw⟩ := coreStep_of_step h
  exact (coreStep_keeps hw).2

theorem run_program {n : Nat} {s t : State} (h : Host.Core.run core n s = .next t) : t.program = s.program :=
  run_keeps (M := core) (P := fun u : State => u.program = s.program)
    (fun hstep hu => (step_program hstep).trans hu) h rfl

/-- Settles O26: the array at the end of a run is the array at its start, so every fetch from it reads the same word. -/
theorem runsNeverWriteTheProgram : Obligations.RunsNeverWriteTheProgram := by
  unfold Obligations.RunsNeverWriteTheProgram
  exact fun _ _ _ h => sameProgram_of_eq (run_program h)

end Sys2Proof.Machine
end

section
/-! PROOFS. Decoding and encoding are inverse to each other, for records and for instructions, and the decoder clause by
clause (spec/30_encoding.md R72–R79, R83). -/

namespace Sys2Proof

/-! ### Records and instructions -/

/-- A word with an I-format opcode decodes to an I record of its fields. -/
theorem decode_of_iFormat {w : Word} {o : Opcode} (ho : o.format = .I) (hop : opcodeField w = o.code) :
    decode w = .ok (.i o (rsField w) (rtField w) (immediateField w)) := by
  simp only [decode, decodeWith, hop, Opcode.ofCode_code, ho]

/-- The word of a record with a funct of the 18 decodes to that record. -/
theorem decode_encR (rs rt rd shamt : BitVec 5) {f : Funct} (hf : f ∈ Funct.members) :
    decode (encR rs rt rd shamt f.code) = .ok (.r rs rt rd shamt f) := by
  obtain ⟨hop, hrs, hrt, hrd, hshamt, hfn⟩ := fields_encR rs rt rd shamt f.code
  rw [decode_of_funct hf hop hfn, hrs, hrt, hrd, hshamt]

/-- A funct that a well-formed R record may have is one of the 18: this hardware has no extra functs. -/
theorem Funct.mem_members_of_wf {rs rt rd shamt : BitVec 5} {f : Funct} (h : (Record.r rs rt rd shamt f).wf = true) :
    f ∈ Funct.members := by
  cases f with
  | extra c => simp [Record.wf, Config.extraRecognizedFuncts] at h
  | _ => decide

/-- R83: decoding the word of a well-formed record gives the record back. -/
theorem decode_encodeRecord {d : Record} (h : d.wf = true) : decode (encodeRecord d) = .ok d := by
  cases d with
  | r rs rt rd shamt f => exact decode_encR rs rt rd shamt (Funct.mem_members_of_wf h)
  | i o rs rt imm =>
    obtain ⟨hop, hrs, hrt, himm⟩ := fields_encI o.code rs rt imm
    rw [encodeRecord, decode_of_iFormat (beq_iff_eq.mp h) hop, hrs, hrt, himm]
  | j o a =>
    obtain ⟨hop, ha⟩ := fields_encJ o.code a
    rw [encodeRecord, decode_of_jFormat (beq_iff_eq.mp h) hop, ha]

/-- Settles O8: the encoders are the sums of the rule by definition, and each direction is a lemma of its own. -/
theorem recordsRoundTrip : Obligations.RecordsRoundTrip := by
  unfold Obligations.RecordsRoundTrip
  exact ⟨fun _ _ _ _ _ => rfl, fun _ _ _ _ => rfl, fun _ _ => rfl, fun _ _ => encodeRecord_of_decode,
    fun _ => decode_encodeRecord⟩

theorem Instr.wellFormed (i : Instr) : i.WellFormed := by cases i <;> rfl

/-- A word decodes to an instruction exactly where it decodes to the instruction's record. -/
theorem decodeInstr_eq_some_iff {w : Word} {i : Instr} : decodeInstr w = some i ↔ decode w = .ok i.toRecord := by
  unfold decodeInstr
  cases decode w with
  | error f => exact ⟨nofun, nofun⟩
  | ok d =>
    refine ⟨fun h => congrArg Except.ok (toRecord_of_toInstr h).symm, fun h => ?_⟩
    rw [Except.ok.inj h]
    exact toInstr_toRecord i

/-- Decoding the word of an instruction gives the instruction back. -/
@[simp] theorem decodeInstr_encode (i : Instr) : decodeInstr (encode i) = some i :=
  decodeInstr_eq_some_iff.mpr (decode_encodeRecord i.wellFormed)

/-- Settles O9: both directions are those of the instruction's record. -/
theorem instructionsRoundTrip : Obligations.InstructionsRoundTrip := by
  unfold Obligations.InstructionsRoundTrip
  exact ⟨fun i _ => decodeInstr_encode i, fun w i h =>
    ⟨i.wellFormed, encodeRecord_of_decode (decodeInstr_eq_some_iff.mp h)⟩⟩

/-! ### The decoder, clause by clause -/

/-- A code stands for no opcode exactly where it is none of the enumeration's codes (R76). -/
theorem Opcode.ofCode_eq_none {c : Code} (h : c ∉ Opcode.members.map Opcode.code) : Opcode.ofCode c = none :=
  List.find?_eq_none.mpr fun _ ho hc => h (beq_iff_eq.mp hc ▸ List.mem_map_of_mem ho)

/-- On this hardware a code stands for no funct where it is none of the 18 codes (R76, R78). -/
theorem Funct.ofCodeWith_eq_none {c : Code} (h : c ∉ Funct.members.map Funct.code) :
    Funct.ofCodeWith Config.extraRecognizedFuncts c = none := by
  have hfind : Funct.members.find? (fun f => f.code == c) = none :=
    List.find?_eq_none.mpr fun _ hf hc => h (beq_iff_eq.mp hc ▸ List.mem_map_of_mem hf)
  rw [Funct.ofCodeWith, hfind]
  exact if_neg List.not_mem_nil

theorem decode_of_bad_opcode {w : Word} (hop : opcodeField w ∉ Opcode.members.map Opcode.code) :
    decode w = .error (.badOpcode (opcodeField w)) := by
  simp only [decode, decodeWith, Opcode.ofCode_eq_none hop]

theorem decode_of_bad_funct {w : Word} (hop : opcodeField w = 0#6)
    (hfn : functField w ∉ Funct.members.map Funct.code) : decode w = .error (.badFunct (functField w)) := by
  have hr : Opcode.ofCode 0#6 = some .rType := rfl
  simp only [decode, decodeWith, hop, hr, Opcode.format, Funct.ofCodeWith_eq_none hfn]

theorem Opcode.mem_members (o : Opcode) : o ∈ Opcode.members := by cases o <;> decide

/-- The opcode codes of a format. -/
def Format.codes (f : Format) : List Code := (Opcode.members.filter fun o => o.format = f).map Opcode.code

theorem Format.mem_codes_iff {f : Format} {c : Code} : c ∈ f.codes ↔ ∃ o : Opcode, o.format = f ∧ o.code = c := by
  simp [Format.codes, Opcode.mem_members]

/-- Settles O5: the literal lists are the code lists of the enumerations, and each clause is the decoder's own. -/
theorem decoderFunction : Obligations.DecoderFunction := by
  unfold Obligations.DecoderFunction
  refine fun w => ⟨fun hop hfn => ?_, fun hop hfn => decode_of_bad_funct hop hfn, fun hop => ?_, fun hop => ?_,
    fun hop => decode_of_bad_opcode hop⟩
  · obtain ⟨f, hf, hcode⟩ := List.mem_map.mp (show functField w ∈ Funct.members.map Funct.code from hfn)
    exact ⟨f, hcode, hf, decode_of_funct hf hop hcode.symm⟩
  · obtain ⟨o, ho, hcode⟩ := Format.mem_codes_iff (f := .J).mp hop
    exact ⟨o, hcode, decode_of_jFormat ho hcode.symm⟩
  · obtain ⟨o, ho, hcode⟩ := Format.mem_codes_iff (f := .I).mp hop
    exact ⟨o, hcode, decode_of_iFormat ho hcode.symm⟩

/-- Settles O6: a look-up of each row of the two maps. -/
theorem codeMapsAreTheSpecs : Obligations.CodeMapsAreTheSpecs := by
  unfold Obligations.CodeMapsAreTheSpecs
  exact ⟨by decide, by decide, rfl⟩

/-! ### How many words decode -/

/-- A word decodes where its opcode is one of the I or J formats, or is zero with one of the 18 functs. -/
theorem exists_decode_iff (w : Word) :
    (∃ d, decode w = .ok d) ↔
      opcodeField w = 0#6 ∧ functField w ∈ Funct.members.map Funct.code ∨
        opcodeField w ∈ Format.codes .I ++ Format.codes .J := by
  rw [List.mem_append, Format.mem_codes_iff, Format.mem_codes_iff]
  constructor
  · rintro ⟨d, hd⟩
    rcases decode_ok_cases hd with ⟨f, hf, hop, hfn, -⟩ | ⟨o, ho, hop, -⟩ | ⟨o, ho, hop, -⟩
    · exact .inl ⟨hop, List.mem_map.mpr ⟨f, hf, hfn.symm⟩⟩
    · exact .inr (.inr ⟨o, ho, hop.symm⟩)
    · exact .inr (.inl ⟨o, ho, hop.symm⟩)
  · rintro (⟨hop, hfn⟩ | ⟨o, ho, hcode⟩ | ⟨o, ho, hcode⟩)
    · obtain ⟨f, hf, hcode⟩ := List.mem_map.mp hfn
      exact ⟨_, decode_of_funct hf hop hcode.symm⟩
    · exact ⟨_, decode_of_iFormat ho hcode.symm⟩
    · exact ⟨_, decode_of_jFormat ho hcode.symm⟩

theorem natCard_bitVec (n : Nat) : Nat.card (BitVec n) = 2 ^ n :=
  (Nat.card_congr BitVec.equivFin.toEquiv).trans (Nat.card_fin _)

/-- A set of opcodes leaves the 26 bits below free. -/
theorem ncard_opcodeField_mem (A : Finset Code) : {w : Word | opcodeField w ∈ A}.ncard = A.card * 2 ^ 26 := by
  have himage : {w : Word | opcodeField w ∈ A} =
      (fun p : Code × BitVec 26 => encJ p.1 p.2) '' ((A : Set Code) ×ˢ Set.univ) := by
    ext w
    constructor
    · exact fun hw => ⟨(opcodeField w, addressField w), ⟨hw, trivial⟩, encJ_fields w⟩
    · rintro ⟨⟨op, a⟩, ⟨hop, -⟩, rfl⟩
      exact (congrArg (· ∈ A) (fields_encJ op a).1).mpr hop
  have hinj : Function.Injective fun p : Code × BitVec 26 => encJ p.1 p.2 :=
    Function.LeftInverse.injective (g := fun w => (opcodeField w, addressField w)) fun p =>
      Prod.ext (fields_encJ p.1 p.2).1 (fields_encJ p.1 p.2).2
  rw [himage, Set.ncard_image_of_injective _ hinj, Set.ncard_prod, Set.ncard_coe_finset, Set.ncard_univ, natCard_bitVec]

/-- The R word of a funct and the four fields between it and the opcode. -/
def packR (p : Code × BitVec 5 × BitVec 5 × BitVec 5 × BitVec 5) : Word :=
  match p with
  | (f, rs, rt, rd, shamt) => encR rs rt rd shamt f

/-- What `packR` packs. -/
def unpackR (w : Word) : Code × BitVec 5 × BitVec 5 × BitVec 5 × BitVec 5 :=
  (functField w, rsField w, rtField w, rdField w, shamtField w)

theorem unpackR_packR : Function.LeftInverse unpackR packR := fun ⟨f, rs, rt, rd, shamt⟩ => by
  simp [unpackR, packR, fields_encR]

/-- A set of functs under opcode zero leaves the four 5-bit fields between free. -/
theorem ncard_functField_mem (B : Finset Code) :
    {w : Word | opcodeField w = 0#6 ∧ functField w ∈ B}.ncard = B.card * 2 ^ 20 := by
  have himage : {w : Word | opcodeField w = 0#6 ∧ functField w ∈ B} = packR '' ((B : Set Code) ×ˢ Set.univ) := by
    ext w
    constructor
    · exact fun ⟨hop, hfn⟩ => ⟨unpackR w, ⟨hfn, trivial⟩, encR_fields hop⟩
    · rintro ⟨⟨f, rs, rt, rd, shamt⟩, ⟨hf, -⟩, rfl⟩
      obtain ⟨hop, -, -, -, -, hfn⟩ := fields_encR rs rt rd shamt f
      exact ⟨hop, (congrArg (· ∈ B) hfn).mpr hf⟩
  rw [himage, Set.ncard_image_of_injective _ unpackR_packR.injective, Set.ncard_prod, Set.ncard_coe_finset,
    Set.ncard_univ]
  simp only [Nat.card_prod, natCard_bitVec]
  norm_num

/-- Settles O10: the words of the 18 functs under opcode zero, and those of the 19 other opcodes. -/
theorem decodableWordCount : Obligations.DecodableWordCount := by
  unfold Obligations.DecodableWordCount
  have hsplit : {w : Word | ∃ d, decode w = .ok d} =
      {w | opcodeField w = 0#6 ∧ functField w ∈ (Funct.members.map Funct.code).toFinset} ∪
        {w | opcodeField w ∈ (Format.codes .I ++ Format.codes .J).toFinset} := by
    ext w
    simp only [Set.mem_union, Set.mem_ofPred_eq, List.mem_toFinset]
    exact exists_decode_iff w
  have hdisjoint : Disjoint {w | opcodeField w = 0#6 ∧ functField w ∈ (Funct.members.map Funct.code).toFinset}
      {w | opcodeField w ∈ (Format.codes .I ++ Format.codes .J).toFinset} := by
    refine Set.disjoint_left.mpr fun w ⟨hop, _⟩ hmem => ?_
    rw [Set.mem_ofPred_eq, hop] at hmem
    exact absurd hmem (by decide)
  have hfuncts : (Funct.members.map Funct.code).toFinset.card = 18 := by decide
  have hopcodes : (Format.codes .I ++ Format.codes .J).toFinset.card = 19 := by decide
  rw [hsplit, Set.ncard_union_eq hdisjoint, ncard_functField_mem, ncard_opcodeField_mem, hfuncts, hopcodes]

end Sys2Proof
end

section
/-! PROOFS. The codec's masks and extractions, bit by bit, and the layouts they are used with
(spec/30_encoding.md R59–R65). -/

namespace Sys2Proof

namespace Codec

/-- The low `width` bits of a word (R62). -/
def lowMask (width : Nat) : Word := BitVec.ofNat 32 (2 ^ width - 1)

theorem lowMask_toNat {width : Nat} (h : width ≤ 32) : (lowMask width).toNat = 2 ^ width - 1 := by
  have hpow : 2 ^ width ≤ 2 ^ 32 := Nat.pow_le_pow_right (by decide) h
  rw [lowMask, BitVec.toNat_ofNat, Nat.mod_eq_of_lt (by omega)]

theorem getLsbD_lowMask (width i : Nat) : (lowMask width).getLsbD i = decide (i < 32 ∧ i < width) := by
  rw [lowMask, BitVec.getLsbD_ofNat, Nat.testBit_two_pow_sub_one, Bool.decide_and]

theorem maskFor_eq_ok {width : Nat} (h : 1 ≤ width ∧ width ≤ 32) : maskFor width = .ok (lowMask width) := if_pos h

theorem maskFor_eq_error {width : Nat} (h : ¬(1 ≤ width ∧ width ≤ 32)) : maskFor width = .error .rangeError := if_neg h

/-- Settles O1: in range the mask is the low bits, as a number and bit by bit. -/
theorem maskForSetsTheLowBits : Obligations.MaskForSetsTheLowBits := by
  unfold Obligations.MaskForSetsTheLowBits
  refine fun width => ⟨fun h => ⟨_, maskFor_eq_ok h, lowMask_toNat h.2, fun i hi => ?_⟩, maskFor_eq_error⟩
  simp only [getLsbD_lowMask, hi, true_and]

theorem fieldMask_eq_ok {width position : Nat} (hw : 1 ≤ width ∧ width ≤ 32) (hp : position ≤ 31) :
    fieldMask width position = .ok (lowMask width <<< position) := by
  rw [fieldMask, if_pos hp, maskFor_eq_ok hw]

theorem fieldMask_eq_error {width position : Nat} (h : ¬(1 ≤ width ∧ width ≤ 32 ∧ position ≤ 31)) :
    fieldMask width position = .error .rangeError := by
  rw [fieldMask]
  split
  · next hp => rw [maskFor_eq_error fun hw => h ⟨hw.1, hw.2, hp⟩]
  · rfl

/-- Settles O2: bit `i` of the mask moved up is bit `i - position` of the low bits. -/
theorem fieldMaskSetsTheFieldBits : Obligations.FieldMaskSetsTheFieldBits := by
  unfold Obligations.FieldMaskSetsTheFieldBits
  refine fun width position => ⟨fun ⟨hlow, hhigh, hp⟩ => ⟨_, fieldMask_eq_ok ⟨hlow, hhigh⟩ hp, fun i hi => ?_⟩,
    fieldMask_eq_error⟩
  rw [BitVec.getLsbD_shiftLeft, getLsbD_lowMask, Bool.eq_iff_iff]
  simp only [Bool.and_eq_true, Bool.not_eq_true', decide_eq_true_eq, decide_eq_false_iff_not]
  omega

/-- R64: extraction with a field's mask is the slice of the word; where the field runs past bit 31, the bits there are
zero on both sides. -/
theorem extract_fieldMask (w : Word) {width position : Nat} (hp : position ≤ 31) :
    extract w (lowMask width <<< position) position = .ok ((w.extractLsb' position width).setWidth 32) := by
  rw [extract, if_pos hp, Except.ok.injEq]
  apply BitVec.eq_of_getLsbD_eq
  intro i hi
  rw [BitVec.getLsbD_ushiftRight, BitVec.getLsbD_and, BitVec.getLsbD_shiftLeft, getLsbD_lowMask, BitVec.getLsbD_setWidth,
    BitVec.getLsbD_extractLsb', Nat.add_sub_cancel_left]
  by_cases hin : position + i < 32
  · simp [hi, hin, Bool.and_comm]
  · simp [BitVec.getLsbD_of_ge w _ (Nat.le_of_not_lt hin)]

end Codec

/-- Every pair of the three layouts is in the codec's range (R65). -/
theorem layout_in_range : ∀ p ∈ Format.layout .R ++ Format.layout .I ++ Format.layout .J,
    (1 ≤ p.1 ∧ p.1 ≤ 32) ∧ p.2 ≤ 31 := by
  decide

/-- Settles O3: every pair is in range, and there an extraction is a slice; the fields are slices by definition. -/
theorem fieldsAreCodecExtractions : Obligations.FieldsAreCodecExtractions := by
  unfold Obligations.FieldsAreCodecExtractions
  refine fun w => ⟨fun width position hmem => ?_, rfl, rfl, rfl, rfl, rfl, rfl, rfl, rfl⟩
  obtain ⟨hw, hp⟩ := layout_in_range _ hmem
  exact ⟨_, Codec.fieldMask_eq_ok hw hp, Codec.extract_fieldMask w hp⟩

/-- R61: the masks of a layout leave no bit of the word out. -/
theorem layout_masks_or (f : Format) :
    ∃ ms : List Word, (Format.layout f).mapM (fun p => (Codec.fieldMask p.1 p.2).toOption) = some ms ∧
      ms.foldl (fun a b => a ||| b) 0 = 0xFFFFFFFF#32 := by
  cases f <;> exact ⟨_, rfl, by decide⟩

/-- Settles O4: the layouts are three closed tables, and the word of a word's own fields is the word. -/
theorem fieldsPartitionTheWord : Obligations.FieldsPartitionTheWord := by
  unfold Obligations.FieldsPartitionTheWord
  refine ⟨fun f => ⟨by cases f <;> rfl, by cases f <;> decide, layout_masks_or f⟩, fun w => ?_⟩
  exact ⟨encR_fields, encI_fields w, encJ_fields w⟩

end Sys2Proof
end

section
/-! PROOFS. Operand forms, fields an instruction ignores, destination 0, pseudo-instructions and labels
(spec/30_encoding.md R67–R69, R80, R81, R84, R85). -/

namespace Sys2Proof.Machine

/-! ### Unused fields and destination 0 -/

/-- Settles O42: no handler names the fields its instruction does not use. -/
theorem unusedFieldsAreIgnored : Obligations.UnusedFieldsAreIgnored := by
  unfold Obligations.UnusedFieldsAreIgnored
  intros
  exact ⟨rfl, rfl, rfl, rfl, rfl, rfl, rfl, rfl, rfl, rfl, rfl, rfl, rfl, rfl, rfl, rfl, rfl, rfl⟩

/-- The functs of the ALU and shift operations, the R-format instructions that write `rd` from general registers. -/
def aluFuncts : List Funct := [.sll, .srl, .add, .addu, .sub, .subu, .and, .or, .nor, .slt, .sltu]

/-- R81: with destination 0 the handler of an ALU or shift operation only reports. -/
theorem dispatch_alu_zero {f : Funct} (hf : f ∈ aluFuncts) (rs rt shamt : BitVec 5) (s : State) :
    dispatch (.r rs rt 0#5 shamt f) s = reportOnly s .ok := by
  simp only [aluFuncts, List.mem_cons, List.not_mem_nil, or_false] at hf
  rcases hf with rfl | rfl | rfl | rfl | rfl | rfl | rfl | rfl | rfl | rfl | rfl <;> rfl

theorem coreStep_alu_zero {f : Funct} (hf : f ∈ aluFuncts) (rs rt shamt : BitVec 5) (s : State) :
    ∃ t, coreStep (encR rs rt 0#5 shamt f.code) s = .next t ∧ OnlyReports (advancePc s) t .ok := by
  have hmem : f ∈ Funct.members := (show aluFuncts ⊆ Funct.members by decide) hf
  rw [coreStep_of_ok (decode_encR rs rt 0#5 shamt hmem), dispatch_alu_zero hf]
  exact reportOnly_spec _ _

/-- Settles O40: the word of zeros is SLL's with every field 0, and the eleven functs are the ALU's. -/
theorem destinationZeroIsANoOp : Obligations.DestinationZeroIsANoOp := by
  unfold Obligations.DestinationZeroIsANoOp
  refine ⟨coreStep_alu_zero (f := .sll) (by decide) 0#5 0#5 0#5, fun s rs rt shamt c hc => ?_⟩
  obtain ⟨f, hf, rfl⟩ := List.mem_map.mp (show c ∈ aluFuncts.map Funct.code from hc)
  exact coreStep_alu_zero hf rs rt shamt s

/-! ### Branch offset and jump target -/

/-- R68: the branch offset is four times the signed immediate; a 16-bit value times 4 does not wrap in 32 bits. -/
theorem toInt_branchOffset (imm : BitVec 16) : (branchOffset imm).toInt = 4 * imm.toInt := by
  have hlow := BitVec.le_toInt imm
  have hhigh := BitVec.toInt_lt (x := imm)
  rw [branchOffset, sext32, ← BitVec.mul_twoPow_eq_shiftLeft, BitVec.toInt_mul, BitVec.toInt_signExtend_of_le (by decide)]
  have htwo : (BitVec.twoPow 32 2).toInt = 4 := by decide
  rw [htwo, Int.bmod_eq_of_le] <;> omega

/-- The number of a concatenation. -/
theorem toNat_append_eq_add {m n : Nat} (x : BitVec m) (y : BitVec n) :
    (x ++ y).toNat = x.toNat * 2 ^ n + y.toNat := by
  rw [BitVec.toNat_append, ← Nat.shiftLeft_add_eq_or_of_lt y.isLt, Nat.shiftLeft_eq]

/-- R69: the jump target's bits are the region of pc, the address field, and two zeros. -/
theorem jumpTarget_eq_append (s : State) (a : BitVec 26) :
    jumpTarget s a = s.pc.extractLsb' 28 4 ++ (a ++ 0#2) := by
  apply BitVec.eq_of_getLsbD_eq
  intro i hi
  simp only [jumpTarget, BitVec.getLsbD_or, BitVec.getLsbD_and, BitVec.getLsbD_shiftLeft, BitVec.getLsbD_setWidth,
    BitVec.getLsbD_append, BitVec.getLsbD_extractLsb']
  interval_cases i <;> simp

theorem region_jumpTarget (s : State) (a : BitVec 26) :
    (jumpTarget s a).extractLsb' 28 4 = s.pc.extractLsb' 28 4 := by
  rw [jumpTarget_eq_append]
  exact BitVec.extractLsb'_append_eq_left

theorem toNat_jumpTarget (s : State) (a : BitVec 26) :
    (jumpTarget s a).toNat = s.pc.toNat / 2 ^ 28 * 2 ^ 28 + 4 * a.toNat := by
  have hpc := s.pc.isLt
  have hregion : (s.pc.extractLsb' 28 4).toNat = s.pc.toNat / 2 ^ 28 := by
    rw [BitVec.extractLsb'_toNat, Nat.shiftRight_eq_div_pow, Nat.mod_eq_of_lt (by omega)]
  rw [jumpTarget_eq_append, toNat_append_eq_add, toNat_append_eq_add, hregion, BitVec.toNat_ofNat]
  omega

/-- Settles O52: the offset from its signed value, and the target from its parts. -/
theorem branchOffsetsAndJumpTargets : Obligations.BranchOffsetsAndJumpTargets := by
  unfold Obligations.BranchOffsetsAndJumpTargets
  refine ⟨fun imm => ⟨rfl, toInt_branchOffset imm, ?_⟩, fun _ _ => rfl, fun s a =>
    ⟨rfl, toNat_jumpTarget s a, ?_, region_jumpTarget s a⟩⟩
  · have hlow := BitVec.le_toInt imm
    have hhigh := BitVec.toInt_lt (x := imm)
    rw [toInt_branchOffset]
    omega
  · rw [toNat_jumpTarget]
    omega

/-! ### Labels -/

/-- R84: the field of the label a branch reaches is the branch's. -/
theorem branchField_target (p : Word) (imm : BitVec 16) :
    branchField p (p + 4#32 + (imm.signExtend 32 <<< 2)) = imm := by
  rw [branchField, add_sub_cancel_left]
  apply BitVec.eq_of_getLsbD_eq
  intro i hi
  have hword : 1 < 2 + i ∧ 2 + i < 32 ∧ i < 32 := by omega
  rw [BitVec.getLsbD_extractLsb', BitVec.getLsbD_shiftLeft, Nat.add_sub_cancel_left, BitVec.getLsbD_signExtend]
  simp [hi, hword]

/-- R84: the field of the label a jump reaches is the jump's. -/
theorem jumpField_jumpTarget (s : State) (a : BitVec 26) : jumpField (jumpTarget s a) = a := by
  rw [jumpField, jumpTarget_eq_append, BitVec.extractLsb'_append_eq_of_add_le (by decide)]
  exact BitVec.extractLsb'_append_eq_left

/-! ### Pseudo-instructions -/

/-- A handler that is a register write has that write's effect. -/
theorem exec_writesReg {i : Instr} {s : State} {rd : RegIdx} {v : Word} (h : exec i s = regResult s rd v) :
    ∃ t, exec i s = .next t ∧ WritesReg s t rd v := by
  rw [h]
  exact regResult_spec s rd v

/-- The branch of either outcome writes pc: a branch that is not taken leaves pc at `P + 4` (R136). -/
theorem branchResult_spec (s : State) (taken : Bool) (imm : BitVec 16) :
    ∃ t, branchResult s taken imm = .next t ∧ WritesPc s t (if taken then branchTarget s imm else s.pc) := by
  cases taken with
  | true => exact jumpResult_spec s _
  | false => exact jumpResult_spec s s.pc

/-- R136: BEQ at address `P`. -/
theorem exec_beq_spec (rs rt : RegIdx) (imm : BitVec 16) {P : Word} {s : State} (hP : s.pc = P + 4#32) :
    ∃ t, exec (.beq rs rt imm) s = .next t ∧
      WritesPc s t (if readReg s rs = readReg s rt then P + 4#32 + (imm.signExtend 32 <<< 2) else P + 4#32) := by
  have h := branchResult_spec s (readReg s rs == readReg s rt) imm
  simp only [branchTarget, hP, beq_iff_eq] at h
  exact h

/-- R137: BNE at address `P`. -/
theorem exec_bne_spec (rs rt : RegIdx) (imm : BitVec 16) {P : Word} {s : State} (hP : s.pc = P + 4#32) :
    ∃ t, exec (.bne rs rt imm) s = .next t ∧
      WritesPc s t (if readReg s rs ≠ readReg s rt then P + 4#32 + (imm.signExtend 32 <<< 2) else P + 4#32) := by
  have h := branchResult_spec s (readReg s rs != readReg s rt) imm
  simp only [branchTarget, hP, bne_iff_ne] at h
  exact h

/-- The signed difference, wrapped, is the difference of the patterns (R112). -/
theorem bits32_sVal_sub (a b : Word) : bits32 (sVal a - sVal b) = a - b := by
  rw [bits32, sVal_eq_toInt, sVal_eq_toInt, Int.sub_eq_add_neg, BitVec.ofInt_add, BitVec.ofInt_neg, BitVec.ofInt_toInt,
    BitVec.ofInt_toInt, BitVec.sub_eq_add_neg]

/-- R85: where `li` has an expansion it is ADDIU of a signed 16-bit value or ORI of an unsigned one. -/
theorem li_eq_some {rt : RegIdx} {n : Int} {i : Instr} (h : Pseudo.li rt n = some i) :
    (-32768 ≤ n ∧ n ≤ 32767 ∧ i = .addiu 0 rt (BitVec.ofInt 16 n)) ∨
      (0 ≤ n ∧ n ≤ 65535 ∧ i = .ori 0 rt (BitVec.ofInt 16 n)) := by
  unfold Pseudo.li at h
  split at h
  · next hn => exact .inl ⟨hn.1, hn.2, (Option.some.inj h).symm⟩
  · split at h
    · next hn => exact .inr ⟨hn.1, hn.2, (Option.some.inj h).symm⟩
    · cases h

theorem li_eq_none_iff (rt : RegIdx) (n : Int) : Pseudo.li rt n = none ↔ n < -32768 ∨ 65535 < n := by
  unfold Pseudo.li
  split
  · simp only [reduceCtorEq, false_iff]; omega
  · split
    · simp only [reduceCtorEq, false_iff]; omega
    · simp only [true_iff]; omega

/-- A signed 16-bit value survives the immediate of ADDIU (R67). -/
theorem immSigned_ofInt {n : Int} (hlow : -32768 ≤ n) (hhigh : n ≤ 32767) :
    immSigned (BitVec.ofInt 16 n) = BitVec.ofInt 32 n := by
  rw [immSigned, sext32, BitVec.signExtend, BitVec.toInt_ofInt_eq_self (by decide) (by omega) (by omega)]

/-- An unsigned 16-bit value survives the immediate of ORI (R67). -/
theorem immUnsigned_ofInt {n : Int} (hlow : 0 ≤ n) (hhigh : n ≤ 65535) :
    immUnsigned (BitVec.ofInt 16 n) = BitVec.ofInt 32 n := by
  obtain ⟨k, rfl⟩ := Int.eq_ofNat_of_zero_le hlow
  rw [BitVec.ofInt_natCast, BitVec.ofInt_natCast, immUnsigned, zext32,
    BitVec.setWidth_ofNat_of_le_of_lt (by decide) (by omega)]

/-- R85: `li` loads its value, in either expansion. -/
theorem exec_li {rt : RegIdx} {n : Int} {i : Instr} (h : Pseudo.li rt n = some i) (s : State) :
    ∃ t, exec i s = .next t ∧ WritesReg s t rt (BitVec.ofInt 32 n) := by
  rcases li_eq_some h with ⟨hlow, hhigh, rfl⟩ | ⟨hlow, hhigh, rfl⟩
  · rw [← immSigned_ofInt hlow hhigh]
    exact exec_writesReg (congrArg (regResult s rt) (BitVec.zero_add _))
  · rw [← immUnsigned_ofInt hlow hhigh]
    exact exec_writesReg (congrArg (regResult s rt) BitVec.zero_or)

theorem exec_move (rd rs : RegIdx) (s : State) :
    ∃ t, exec (Pseudo.move rd rs) s = .next t ∧ WritesReg s t rd (readReg s rs) :=
  exec_writesReg (congrArg (regResult s rd) (BitVec.add_zero _))

theorem exec_not (rd rs : RegIdx) (s : State) :
    ∃ t, exec (Pseudo.not rd rs) s = .next t ∧ WritesReg s t rd (~~~ readReg s rs) :=
  exec_writesReg (congrArg (fun v => regResult s rd (~~~ v)) BitVec.or_zero)

theorem exec_neg (rd rs : RegIdx) (s : State) :
    ∃ t, exec (Pseudo.neg rd rs) s = .next t ∧ WritesReg s t rd (- readReg s rs) :=
  exec_writesReg (congrArg (regResult s rd) ((bits32_sVal_sub _ _).trans (BitVec.zero_sub _)))

/-- R85: `b` compares register 0 with itself, so it is always taken. -/
theorem exec_b (imm : BitVec 16) {P : Word} {s : State} (hP : s.pc = P + 4#32) :
    ∃ t, exec (Pseudo.b imm) s = .next t ∧ WritesPc s t (P + 4#32 + (imm.signExtend 32 <<< 2)) := by
  have h := exec_beq_spec 0 0 imm hP
  rw [if_pos rfl] at h
  exact h

/-- Settles O58: each expansion is a handler with register 0, which reads zero, as an operand. -/
theorem pseudoInstructionsAndLabels : Obligations.PseudoInstructionsAndLabels := by
  unfold Obligations.PseudoInstructionsAndLabels
  refine ⟨by decide, fun rd rs n s => ?_, fun rs imm P s hP => ?_, branchField_target, jumpField_jumpTarget⟩
  · exact ⟨reportOnly_spec s .ok, exec_move rd rs s, exec_not rd rs s, exec_neg rd rs s, fun i hi => exec_li hi s,
      li_eq_none_iff rd n, jumpResult_spec s _⟩
  · exact ⟨exec_b imm hP, exec_beq_spec rs 0 imm hP, exec_bne_spec rs 0 imm hP⟩

end Sys2Proof.Machine
end

section
/-! PROOFS. Decoding, dispatch and the step cycle: the instruction a step runs, the advance of pc, and the step's one
report (spec/40_dispatch.md R95–R109, spec/60_exceptions.md R154–R161). -/

namespace Sys2Proof

/-- A funct of the extra set that is none of the 18 is found as an extra one (R108). -/
theorem Funct.ofCodeWith_eq_extra {extra : List Code} {c : Code} (hmem : c ∈ extra)
    (h : c ∉ Funct.members.map Funct.code) : Funct.ofCodeWith extra c = some (.extra c) := by
  have hfind : Funct.members.find? (fun f => f.code == c) = none :=
    List.find?_eq_none.mpr fun _ hf hc => h (beq_iff_eq.mp hc ▸ List.mem_map_of_mem hf)
  rw [Funct.ofCodeWith, hfind]
  exact if_pos hmem

/-- A word with opcode zero and a funct of the extra set decodes to an R record of that funct (R108). -/
theorem decodeWith_of_extra_funct {extra : List Code} {w : Word} (hop : opcodeField w = 0#6)
    (hmem : functField w ∈ extra) (hfn : functField w ∉ Funct.members.map Funct.code) :
    decodeWith extra w =
      .ok (.r (rsField w) (rtField w) (rdField w) (shamtField w) (.extra (functField w))) := by
  have hr : Opcode.ofCode 0#6 = some .rType := rfl
  simp only [decodeWith, hop, hr, Opcode.format, Funct.ofCodeWith_eq_extra hmem hfn]

theorem encode_of_decodeInstr {w : Word} {i : Instr} (h : decodeInstr w = some i) : encode i = w :=
  encodeRecord_of_decode (decodeInstr_eq_some_iff.mp h)

/-- A word decodes exactly where it decodes to an instruction: every record the decoder gives has an entry (R109). -/
theorem exists_decode_iff_exists_decodeInstr (w : Word) :
    (∃ d, decode w = .ok d) ↔ ∃ i, decodeInstr w = some i := by
  constructor
  · rintro ⟨d, hd⟩
    obtain ⟨i, hi⟩ := Option.isSome_iff_exists.mp (toInstr_isSome_of_decode hd)
    exact ⟨i, decodeInstr_eq_some_iff.mpr (toRecord_of_toInstr hi ▸ hd)⟩
  · rintro ⟨i, hi⟩
    exact ⟨_, decodeInstr_eq_some_iff.mp hi⟩

end Sys2Proof

namespace Sys2Proof.Machine

/-! ### The instruction a step runs, and its pc -/

theorem coreStep_of_decodeInstr {w : Word} {i : Instr} (h : decodeInstr w = some i) (s : State) :
    coreStep w s = exec i (advancePc s) :=
  coreStep_of_instr (decodeInstr_eq_some_iff.mp h) (toInstr_toRecord i) s

/-- Settles O15: the step is the core's step on the fetched word, which runs the decoded instruction's handler. -/
theorem stepRunsTheDecodedInstruction : Obligations.StepRunsTheDecodedInstruction := by
  unfold Obligations.StepRunsTheDecodedInstruction
  intro s w i hfetch hi
  rw [← fetch_eq_fetchWord] at hfetch
  exact ⟨i.wellFormed, (step_of_fetch_some hfetch).trans (coreStep_of_decodeInstr hi s), rfl, rfl, rfl, rfl, rfl, rfl⟩

/-- The words of the instructions that may write pc after the advance: the branches and jumps, and JR (R27). -/
theorem word_of_mayWritePc {i : Instr} (h : mayWritePc i = true) :
    opcodeField (encode i) ∈ [0x02#6, 0x03#6, 0x04#6, 0x05#6] ∨
      opcodeField (encode i) = 0x00#6 ∧ functField (encode i) = 0x08#6 := by
  cases i <;> cases h
  case jr => exact .inr (by simp [encode, Instr.toRecord, encodeRecord, fields_encR, Funct.code])
  case beq | bne => exact .inl (by simp [encode, Instr.toRecord, encodeRecord, fields_encI, Opcode.code])
  case j | jal => exact .inl (by simp [encode, Instr.toRecord, encodeRecord, fields_encJ, Opcode.code])

/-- Settles O18: an effect that writes pc belongs to a branch, a jump or JR; every other step keeps the advanced pc. -/
theorem pcAdvancesByFour : Obligations.PcAdvancesByFour := by
  unfold Obligations.PcAdvancesByFour
  intro s t w hf hstep hjump hjr
  rw [step_of_fetch_some hf] at hstep
  rcases coreStep_next_cases hstep with ⟨f, rfl⟩ | ⟨i, e, rfl, -, hwithin, rfl⟩
  · rfl
  · have htarget : e.target = none := by
      by_contra hwrites
      exact (word_of_mayWritePc (hwithin.target (Option.isSome_iff_ne_none.mpr hwrites))).elim hjump hjr
    rw [Effect.apply_pc, htarget]
    rfl

/-! ### Words without an entry -/

/-- Settles O19: the step only reports, in the advanced state, and the report's code is the one that was looked up. -/
theorem decodeFailureOnlyAdvances : Obligations.DecodeFailureOnlyAdvances := by
  unfold Obligations.DecodeFailureOnlyAdvances
  intro s w f hf herror
  rw [step_of_fetch_some hf, coreStep_of_error herror]
  obtain ⟨t, ht, hreg, hhi, hlo, hpc, hprogram, hreports⟩ := reportOnly_spec (advancePc s) (.decodeFailure f)
  refine ⟨t, ht, hpc, hreg, hhi, hlo, hprogram, hreports, ?_⟩
  rcases decode_error_cases herror with ⟨-, hbad⟩ | ⟨hop, -, hbad⟩
  · exact .inl hbad
  · exact .inr ⟨hop, hbad⟩

/-- Settles O21: with the set the word's record has no wired entry, so its default handler only reports; without the set
the decoder rejects the word. -/
theorem extraFunctsDifferOnlyInTheReport : Obligations.ExtraFunctsDifferOnlyInTheReport := by
  unfold Obligations.ExtraFunctsDifferOnlyInTheReport
  intro extra w s hop hmem hfn
  have hdecode := decodeWith_of_extra_funct hop hmem hfn
  refine ⟨⟨_, hdecode, rfl, rfl⟩, ?_, ?_⟩
  · rw [coreStepWith, hdecode]
    exact reportOnly_spec _ _
  · rw [coreStep_of_error (decode_of_bad_funct hop hfn)]
    exact reportOnly_spec _ _

/-! ### One report a step -/

theorem step_history {s t : State} (h : step s = .next t) : ∃ r, t.history = r :: s.history := by
  obtain ⟨w, -, hw⟩ := coreStep_of_step h
  rcases coreStep_next_cases hw with ⟨f, rfl⟩ | ⟨i, e, -, -, -, rfl⟩
  · exact ⟨_, rfl⟩
  · exact ⟨_, e.apply_history _⟩

/-- Settles O27, by induction on the number of steps: the first step's report stands before the start's history, and the
later steps' before it. -/
theorem runsAddOneReportPerStep : Obligations.RunsAddOneReportPerStep := by
  unfold Obligations.RunsAddOneReportPerStep
  intro n
  induction n with
  | zero => intro s t h; cases h; exact ⟨[], rfl, rfl⟩
  | succ n ih =>
    intro s t h
    obtain ⟨u, hstep, hrun⟩ := run_succ_next h
    obtain ⟨r, hr⟩ := step_history hstep
    obtain ⟨rs, hlength, hrs⟩ := ih u t hrun
    refine ⟨rs ++ [r], ?_, ?_⟩
    · rw [List.length_append, hlength, List.length_singleton]
    · rw [hrs, hr, List.append_assoc, List.singleton_append]

/-! ### What a step depends on -/

theorem SameArch.refl (s : State) : SameArch s s := ⟨fun _ => rfl, rfl, rfl, rfl⟩

theorem SameArch.advancePc {s s' : State} (h : SameArch s s') : SameArch (advancePc s) (advancePc s') := by
  obtain ⟨hreg, hhi, hlo, hpc⟩ := h
  exact ⟨hreg, hhi, hlo, congrArg (· + 4#32) hpc⟩

/-- States with the same architectural state agree on what any instruction reads. -/
theorem SameArch.readsAlike {s s' : State} (h : SameArch s s') (i : Instr) : ReadsAlike i s s' := by
  obtain ⟨hreg, hhi, hlo, hpc⟩ := h
  exact ⟨fun r _ => hreg r, hpc, fun _ => ⟨hhi, hlo⟩⟩

/-- The core's step on a word has one effect for all states with the same architectural state. -/
theorem coreStep_effect (w : Word) (s : State) :
    ∃ e : Effect, ∀ s', SameArch s s' → coreStep w s' = .next (e.apply (advancePc s')) := by
  cases hd : decode w with
  | error f => exact ⟨⟨none, none, none, .decodeFailure f⟩, fun s' _ => coreStep_of_error hd s'⟩
  | ok d =>
    obtain ⟨i, hi⟩ := Option.isSome_iff_exists.mp (toInstr_isSome_of_decode hd)
    obtain ⟨e, -, hexec⟩ := exec_effect i (advancePc s)
    exact ⟨e, fun s' hsame => (coreStep_of_instr hd hi s').trans (hexec _ (hsame.advancePc.readsAlike i))⟩

/-- An effect does the same to states with the same architectural state. -/
theorem Effect.sameArch_apply (e : Effect) {s s' : State} (h : SameArch s s') : SameArch (e.apply s) (e.apply s') := by
  obtain ⟨hreg, hhi, hlo, hpc⟩ := h
  exact ⟨fun q => by simp [hreg], by simp [hhi], by simp [hlo], by simp [hpc]⟩

theorem Effect.report_apply (e : Effect) (s : State) : Machine.report (e.apply s) = e.report := by
  simp [Machine.report]

/-- Settles O32: both steps are one effect, which brings its own report. -/
theorem stepDependsOnStateAndWordAlone : Obligations.StepDependsOnStateAndWordAlone := by
  unfold Obligations.StepDependsOnStateAndWordAlone
  intro s s' w hsame
  obtain ⟨e, heffect⟩ := coreStep_effect w s
  refine ⟨_, _, heffect s (.refl s), heffect s' hsame, e.sameArch_apply hsame.advancePc, ?_⟩
  rw [e.report_apply, e.report_apply]

/-! ### The report of a handler -/

/-- A division whose divisor register holds zero (R26). -/
def dividesByZero (i : Instr) (s : State) : Bool :=
  match i with
  | .div _ rt _ _ | .divu _ rt _ _ => readReg s rt == 0#32
  | _ => false

/-- The report of an instruction's handler: its default handler's, a zero divisor's, or OK (R101, R157, R158). -/
def handlerReport (i : Instr) (s : State) : Report :=
  if handled i then
    if dividesByZero i s then .divideByZero else .ok
  else .unhandledInstruction i.toRecord.format i.toRecord.code

theorem sVal_eq_zero_iff (b : Word) : sVal b = 0 ↔ b = 0#32 := by
  rw [sVal_eq_toInt, ← BitVec.toInt_inj, BitVec.toInt_zero]

theorem uVal_eq_zero_iff (b : Word) : uVal b = 0 ↔ b = 0#32 := by
  rw [uVal, Int.natCast_eq_zero, ← BitVec.toNat_inj, BitVec.toNat_zero]

theorem divSigned_eq_none_iff (a b : Word) : divSigned a b = none ↔ b = 0#32 := by
  rw [divSigned, ← sVal_eq_zero_iff]
  split
  · next h => simp [h]
  · next h => split <;> simp [h]

theorem divUnsigned_eq_none_iff (a b : Word) : divUnsigned a b = none ↔ b = 0#32 := by
  rw [divUnsigned, ← uVal_eq_zero_iff]
  split
  · next h => simp [h]
  · next h => simp [h]

/-- A next state that is a report raised in a state with an unchanged history gives that one report. -/
theorem exists_next_raise {s u : State} {r : Report} (h : u.history = s.history) :
    ∃ t, (Host.Outcome.next (raise u r) : Result) = .next t ∧ Reports s t r :=
  ⟨_, rfl, reports_of_eq (congrArg (r :: ·) h)⟩

theorem divisionResult_reports {s : State} {o : Option (Word × Word)} {b : Word} (h : o = none ↔ b = 0#32) :
    ∃ t, divisionResult s o = .next t ∧ Reports s t (if b == 0#32 then .divideByZero else .ok) := by
  cases o with
  | none => rw [h.mp rfl]; exact exists_next_raise rfl
  | some p =>
    have hb : b ≠ 0#32 := fun hb => by cases h.mpr hb
    rw [if_neg (by simpa using hb)]
    exact exists_next_raise rfl

/-- A handler answers a next state with its one report. -/
theorem exec_reports (i : Instr) (s : State) : ∃ t, exec i s = .next t ∧ Reports s t (handlerReport i s) := by
  cases i
  case div => exact divisionResult_reports (divSigned_eq_none_iff _ _)
  case divu => exact divisionResult_reports (divUnsigned_eq_none_iff _ _)
  case beq | bne =>
    obtain ⟨t, ht, -, -, -, -, -, hreports⟩ := branchResult_spec s _ _
    exact ⟨t, ht, hreports⟩
  case jal => exact exists_next_raise (writeReg_history _ _ _)
  case mult | multu | jr | j | lui | lw | lbu | lhu | sb | sh | sw | ll | sc => exact exists_next_raise rfl
  all_goals exact exists_next_raise (writeReg_history _ _ _)

/-- The instructions without a handler are the nine listed opcodes' (R100). -/
theorem handled_eq_false_iff (i : Instr) : handled i = false ↔ i.toRecord.format = .I ∧
    i.toRecord.code ∈ [0x0F#6, 0x23#6, 0x24#6, 0x25#6, 0x28#6, 0x29#6, 0x2B#6, 0x30#6, 0x38#6] := by
  cases i <;> simp [handled, Instr.toRecord, Record.format, Record.code, Opcode.code]

theorem handlerReport_eq_unhandled_iff (i : Instr) (s : State) (f : Format) (c : Code) :
    handlerReport i s = .unhandledInstruction f c ↔
      handled i = false ∧ i.toRecord.format = f ∧ i.toRecord.code = c := by
  rw [handlerReport]
  cases handled i with
  | true => cases dividesByZero i s <;> simp
  | false => simp

/-- Settles O22: each of the first three parts is the decoder's or the tables' own lemma; a handler's report names its own
code exactly where the instruction has no handler. -/
theorem dispatchMatchesTheDecoder : Obligations.DispatchMatchesTheDecoder := by
  unfold Obligations.DispatchMatchesTheDecoder
  refine ⟨exists_decode_iff_exists_decodeInstr, fun i => decode_encodeRecord i.wellFormed,
    fun _ _ => toRecord_of_toInstr, fun i s t h => ?_⟩
  obtain ⟨t', ht', -, hreport⟩ := exec_reports i s
  cases h.symm.trans ht'
  rw [hreport, handlerReport_eq_unhandled_iff, ← handled_eq_false_iff]
  exact and_iff_left ⟨rfl, rfl⟩

/-! ### The first cause -/

/-- A handler's report read off the instruction's word; the cases are the three formats. -/
theorem handlerReport_eq_of_word (i : Instr) (s : State) : handlerReport i s =
    if opcodeField (encode i) ∈ [0x0F#6, 0x23#6, 0x24#6, 0x25#6, 0x28#6, 0x29#6, 0x2B#6, 0x30#6, 0x38#6] then
      .unhandledInstruction .I (opcodeField (encode i))
    else if opcodeField (encode i) = 0x00#6 ∧ functField (encode i) ∈ [0x1A#6, 0x1B#6] ∧
        readReg s (rtField (encode i)) = 0x00000000#32 then
      .divideByZero
    else .ok := by
  unfold handlerReport
  cases i
  case j | jal =>
    simp [handled, dividesByZero, encode, Instr.toRecord, encodeRecord, fields_encJ, Opcode.code]
  case beq | bne | addi | addiu | slti | sltiu | andi | ori | lui | lw | lbu | lhu | sb | sh | sw | ll | sc =>
    simp [handled, dividesByZero, encode, Instr.toRecord, Record.format, Record.code, encodeRecord, fields_encI,
      Opcode.code]
  all_goals
    simp [handled, dividesByZero, encode, Instr.toRecord, encodeRecord, fields_encR, Funct.code]

/-- A word whose opcode is in the map, and whose funct is where the opcode is zero, decodes to an instruction. -/
theorem exists_decodeInstr_of_codes {w : Word} (hop : opcodeField w ∈ Opcode.members.map Opcode.code)
    (hfn : opcodeField w = 0#6 → functField w ∈ Funct.members.map Funct.code) : ∃ i, decodeInstr w = some i := by
  rw [← exists_decode_iff_exists_decodeInstr, exists_decode_iff]
  have hsplit : Opcode.members.map Opcode.code ⊆ 0#6 :: (Format.codes .I ++ Format.codes .J) := by decide
  rcases List.mem_cons.mp (hsplit hop) with hzero | hother
  · exact .inl ⟨hzero, hfn hzero⟩
  · exact .inr hother

/-- Settles O23, along the order of the causes: a word with a bad opcode, a word with a bad funct, and the report of the
handler of the instruction that every other word decodes to. -/
theorem reportIsTheFirstCause : Obligations.ReportIsTheFirstCause := by
  unfold Obligations.ReportIsTheFirstCause
  intro s w hf
  rw [step_of_fetch_some hf]
  split
  · next hbad =>
    rw [coreStep_of_error (decode_of_bad_opcode hbad)]
    exact exists_next_raise rfl
  · next hop =>
    split
    · next hbad =>
      rw [coreStep_of_error (decode_of_bad_funct hbad.1 hbad.2)]
      exact exists_next_raise rfl
    · next hfn =>
      obtain ⟨i, hi⟩ := exists_decodeInstr_of_codes (not_not.mp hop) fun hzero =>
        not_not.mp (not_and.mp hfn hzero)
      obtain ⟨t, ht, hreports⟩ := exec_reports i (advancePc s)
      rw [handlerReport_eq_of_word, encode_of_decodeInstr hi] at hreports
      exact ⟨t, (coreStep_of_decodeInstr hi s).trans ht, hreports⟩

end Sys2Proof.Machine
end

section
/-! PROOFS. The register-register ALU operations: every one decodes from its word and writes one value to `rd`; what is
left to each is that value (spec/41_alu_register.md R110–R120). -/

namespace Sys2Proof.Machine

/-- The word of an instruction whose handler is a register write decodes to it, and the handler has that write's
effect. -/
theorem decodes_and_writesReg {i : Instr} {s : State} {rd : RegIdx} {v : Word} (h : exec i s = regResult s rd v) :
    decodeInstr (encode i) = some i ∧ ∃ t, exec i s = .next t ∧ WritesReg s t rd v :=
  ⟨decodeInstr_encode i, exec_writesReg h⟩

/-- The same, for a value known by a property of it. -/
theorem decodes_and_writesReg_of {i : Instr} {s : State} {rd : RegIdx} {v : Word} {P : Word → Prop}
    (h : exec i s = regResult s rd v) (hv : P v) :
    decodeInstr (encode i) = some i ∧ ∃ t v, exec i s = .next t ∧ WritesReg s t rd v ∧ P v :=
  have ⟨t, ht, hw⟩ := exec_writesReg h
  ⟨decodeInstr_encode i, t, v, ht, hw, hv⟩

/-! ### Sums and differences -/

/-- The signed sum, wrapped, is the sum of the patterns (R110, R111). -/
theorem bits32_sVal_add (a b : Word) : bits32 (sVal a + sVal b) = a + b := by
  rw [bits32, sVal_eq_toInt, sVal_eq_toInt, BitVec.ofInt_add, BitVec.ofInt_toInt, BitVec.ofInt_toInt]

/-- The difference of the patterns, as a number: the unsigned difference modulo 2^32, which may be negative before the
reduction (R113). -/
theorem toNat_sub_eq_emod (a b : Word) : ((a - b).toNat : Int) = ((a.toNat : Int) - (b.toNat : Int)) % 2 ^ 32 := by
  have ha := a.isLt
  have hb := b.isLt
  rw [BitVec.toNat_sub]
  omega

/-- Settles O35: the value is the signed sum, which is the sum of the patterns. -/
theorem sumsWrap : Obligations.SumsWrap := by
  unfold Obligations.SumsWrap
  intro rs rt rd shamt s
  have hsum := bits32_sVal_add (readReg s rs) (readReg s rt)
  refine ⟨readReg s rs + readReg s rt, ?_, BitVec.toNat_add _ _, ?_, ?_⟩
  · rw [← hsum, sVal_eq_toInt, sVal_eq_toInt, bits32]
  · exact decodes_and_writesReg (i := .add rs rt rd shamt) (congrArg (regResult s rd) hsum)
  · exact decodes_and_writesReg (i := .addu rs rt rd shamt) rfl

/-- Settles O36: the value is the signed difference, which is the difference of the patterns. -/
theorem differencesWrap : Obligations.DifferencesWrap := by
  unfold Obligations.DifferencesWrap
  intro rs rt rd shamt s
  have hdiff := bits32_sVal_sub (readReg s rs) (readReg s rt)
  refine ⟨readReg s rs - readReg s rt, ?_, toNat_sub_eq_emod _ _, ?_, ?_⟩
  · rw [← hdiff, sVal_eq_toInt, sVal_eq_toInt, bits32]
  · exact decodes_and_writesReg (i := .sub rs rt rd shamt) (congrArg (regResult s rd) hdiff)
  · exact decodes_and_writesReg (i := .subu rs rt rd shamt) rfl

/-! ### Bitwise operations -/

/-- Settles O37: each value is the library's operation, whose bits are those of the operands. Only NOR's complement
needs the bit to be one of the 32. -/
theorem logicalOperationsAreBitwise : Obligations.LogicalOperationsAreBitwise := by
  unfold Obligations.LogicalOperationsAreBitwise
  intro rs rt rd shamt s
  refine ⟨decodes_and_writesReg_of (i := .and rs rt rd shamt) rfl fun i _ => BitVec.getLsbD_and,
    decodes_and_writesReg_of (i := .or rs rt rd shamt) rfl fun i _ => BitVec.getLsbD_or,
    decodes_and_writesReg_of (i := .nor rs rt rd shamt) rfl fun i hi => ?_⟩
  rw [BitVec.getLsbD_not, BitVec.getLsbD_or, decide_eq_true hi, Bool.true_and]

/-! ### Comparisons -/

/-- The signed comparison as a word, by the library's signed order (R117). -/
theorem lessSigned_eq_ite (a b : Word) :
    lessSigned a b = if a.toInt < b.toInt then 0x00000001#32 else 0x00000000#32 := by
  simp only [lessSigned, boolWord, sVal_eq_toInt, decide_eq_true_eq]

/-- The unsigned comparison as a word, by the order of the numbers (R118). -/
theorem lessUnsigned_eq_ite (a b : Word) :
    lessUnsigned a b = if a.toNat < b.toNat then 0x00000001#32 else 0x00000000#32 := by
  simp only [lessUnsigned, boolWord, uVal, decide_eq_true_eq, Nat.cast_lt]

/-- Settles O38: the values are the two comparisons' words. -/
theorem comparisonsStoreOneOrZero : Obligations.ComparisonsStoreOneOrZero := by
  unfold Obligations.ComparisonsStoreOneOrZero
  intro rs rt rd shamt s
  rw [← lessSigned_eq_ite, ← lessUnsigned_eq_ite]
  exact ⟨decodes_and_writesReg (i := .slt rs rt rd shamt) rfl, decodes_and_writesReg (i := .sltu rs rt rd shamt) rfl⟩

/-! ### Shifts -/

/-- A left shift is the product by a power of two, modulo 2^32 (R119). -/
theorem toNat_shiftLeft (v : Word) (shamt : BitVec 5) :
    (shiftLeft v shamt).toNat = v.toNat * 2 ^ shamt.toNat % 2 ^ 32 := by
  rw [shiftLeft, BitVec.toNat_shiftLeft, Nat.shiftLeft_eq]

/-- A right shift is the quotient by a power of two, rounded down: zeros enter at bit 31 (R120). -/
theorem toNat_shiftRight (v : Word) (shamt : BitVec 5) :
    (shiftRight v shamt).toNat = v.toNat / 2 ^ shamt.toNat := by
  rw [shiftRight, BitVec.toNat_ushiftRight, Nat.shiftRight_eq_div_pow]

/-- Settles O39: neither handler reads `rs`, and the values are the two shifts of `rt`. -/
theorem shiftsAreLogical : Obligations.ShiftsAreLogical := by
  unfold Obligations.ShiftsAreLogical
  intro rs rt rd shamt s
  exact ⟨decodes_and_writesReg_of (i := .sll rs rt rd shamt) rfl (toNat_shiftLeft _ _),
    decodes_and_writesReg_of (i := .srl rs rt rd shamt) rfl (toNat_shiftRight _ _)⟩

end Sys2Proof.Machine
end

section
/-! PROOFS. Multiply, divide and the accumulator moves: products are their two halves, and every division with a divisor
that is not zero, the wrapped one included, is the library's quotient and remainder of the patterns
(spec/42_muldiv_move.md R121–R128). -/

namespace Sys2Proof

/-! ### Products -/

/-- A 64-bit pattern is its two halves (R121). -/
theorem highHalf_append_lowHalf (p : BitVec 64) : (highHalf p ++ lowHalf p : BitVec 64) = p :=
  BitVec.extractLsb'_append_extractLsb'

/-- R121: the signed product fits in 64 bits. -/
theorem toInt_ofInt_mul (a b : Word) : (BitVec.ofInt 64 (a.toInt * b.toInt)).toInt = a.toInt * b.toInt := by
  have hlow : -2 ^ 62 ≤ a.toInt * b.toInt := BitVec.le_toInt_mul_toInt
  have hhigh : a.toInt * b.toInt ≤ 2 ^ 62 := BitVec.toInt_mul_toInt_le
  exact BitVec.toInt_ofInt_eq_self (by decide) (by omega) (by omega)

/-- R122: the unsigned product fits in 64 bits. -/
theorem toNat_bits64_uVal_mul (a b : Word) : (bits64 (uVal a * uVal b)).toNat = a.toNat * b.toNat := by
  have hfits : a.toNat * b.toNat < 2 ^ 32 * 2 ^ 32 := Nat.mul_lt_mul'' a.isLt b.isLt
  rw [bits64, uVal, uVal, ← Int.natCast_mul, BitVec.ofInt_natCast, BitVec.toNat_ofNat]
  exact Nat.mod_eq_of_lt hfits

/-! ### Quotients and remainders of patterns -/

theorem toInt_eq_zero_iff (b : Word) : b.toInt = 0 ↔ b = 0#32 := by
  rw [← BitVec.toInt_inj, BitVec.toInt_zero]

/-- The one signed division whose quotient does not fit (R124), in numbers and in patterns. -/
theorem div_overflow_iff (a b : Word) :
    (a.toInt = -2 ^ 31 ∧ b.toInt = -1) ↔ (a = 0x80000000#32 ∧ b = 0xFFFFFFFF#32) := by
  rw [← BitVec.toInt_inj, ← BitVec.toInt_inj]
  exact .rfl

/-- The library's signed remainder is the pattern of the remainder of the division rounded toward zero. -/
theorem srem_eq_ofInt_tmod (a b : Word) : a.srem b = BitVec.ofInt 32 (a.toInt.tmod b.toInt) := by
  rw [← BitVec.toInt_srem, BitVec.ofInt_toInt]

/-- The library's signed quotient is the pattern of the quotient rounded toward zero. -/
theorem sdiv_eq_ofInt_tdiv (a b : Word) : a.sdiv b = BitVec.ofInt 32 (a.toInt.tdiv b.toInt) := by
  rw [← BitVec.toInt_inj, BitVec.toInt_sdiv, BitVec.toInt_ofInt]

/-- R123 modulo 2^32, for all patterns: -2^31 by -1 is no exception. -/
theorem sdiv_mul_add_srem (a b : Word) : a.sdiv b * b + a.srem b = a := by
  calc a.sdiv b * b + a.srem b
      = BitVec.ofInt 32 (a.toInt.tdiv b.toInt) * BitVec.ofInt 32 b.toInt + BitVec.ofInt 32 (a.toInt.tmod b.toInt) := by
        rw [sdiv_eq_ofInt_tdiv, srem_eq_ofInt_tmod, BitVec.ofInt_toInt]
    _ = BitVec.ofInt 32 a.toInt := by rw [← BitVec.ofInt_mul, ← BitVec.ofInt_add, Int.tdiv_mul_add_tmod]
    _ = a := BitVec.ofInt_toInt

/-- R123 in exact integers: where the quotient fits. -/
theorem toInt_sdiv_mul_add_toInt_srem {a b : Word} (h : ¬(a = 0x80000000#32 ∧ b = 0xFFFFFFFF#32)) :
    (a.sdiv b).toInt * b.toInt + (a.srem b).toInt = a.toInt := by
  rw [BitVec.toInt_sdiv_of_ne_or_ne a b (not_and_or.mp h), BitVec.toInt_srem, Int.tdiv_mul_add_tmod]

/-- R123: the signed remainder is smaller than the divisor. -/
theorem abs_toInt_srem_lt (a : Word) {b : Word} (h : b ≠ 0#32) : |(a.srem b).toInt| < |b.toInt| := by
  have hb : 0 < b.toInt.natAbs := Int.natAbs_pos.mpr (mt (toInt_eq_zero_iff b).mp h)
  rw [BitVec.toInt_srem, Int.abs_eq_natAbs, Int.abs_eq_natAbs, Int.natAbs_tmod]
  exact Int.ofNat_lt.mpr (Nat.mod_lt _ hb)

/-- R123: the signed remainder is zero or has the dividend's sign. -/
theorem toInt_srem_eq_zero_or_sign_eq (a b : Word) :
    (a.srem b).toInt = 0 ∨ (a.srem b).toInt.sign = a.toInt.sign := by
  rw [BitVec.toInt_srem, ← Int.sign_eq_zero_iff_zero, Int.sign_tmod]
  split
  · exact .inl rfl
  · exact .inr rfl

end Sys2Proof

namespace Sys2Proof.Machine

/-! ### The model's divisions -/

/-- The model's signed division, its overflow case included, is the library's. -/
theorem divSigned_of_ne_zero (a : Word) {b : Word} (h : b ≠ 0#32) : divSigned a b = some (a.srem b, a.sdiv b) := by
  rw [divSigned, if_neg (mt (sVal_eq_zero_iff b).mp h)]
  split
  · next hover =>
    rw [sVal_eq_toInt, sVal_eq_toInt, div_overflow_iff] at hover
    obtain ⟨rfl, rfl⟩ := hover
    rfl
  · rw [truncRem, truncDiv, ← Int.tmod_def, sVal_eq_toInt, sVal_eq_toInt, srem_eq_ofInt_tmod, sdiv_eq_ofInt_tdiv]
    rfl

/-- The model's unsigned division is the library's. -/
theorem divUnsigned_of_ne_zero (a : Word) {b : Word} (h : b ≠ 0#32) : divUnsigned a b = some (a % b, a / b) := by
  rw [divUnsigned, if_neg (mt (uVal_eq_zero_iff b).mp h), truncRem, truncDiv, ← Int.tmod_def, uVal, uVal,
    ← Int.ofNat_tmod, ← Int.ofNat_tdiv, bits32, bits32, BitVec.ofInt_natCast, BitVec.ofInt_natCast, BitVec.udiv_def,
    BitVec.umod_def]

/-! ### The handlers -/

theorem productResult_spec (s : State) (p : Int) :
    ∃ t h l, productResult s p = .next t ∧ WritesHiLo s t h l ∧ (h ++ l : BitVec 64) = bits64 p :=
  have ⟨t, ht, hw⟩ := hiLoResult_spec s (highHalf (bits64 p)) (lowHalf (bits64 p))
  ⟨t, _, _, ht, hw, highHalf_append_lowHalf _⟩

section
variable (rs rt rd shamt : BitVec 5) {s : State}

/-- R26, R124: DIV by zero only reports. -/
theorem exec_div_of_eq_zero (h : readReg s rt = 0#32) :
    ∃ t, exec (.div rs rt rd shamt) s = .next t ∧ OnlyReports s t .divideByZero := by
  rw [exec, execDiv, h, divSigned_zero]
  exact reportOnly_spec s _

/-- R124: DIV by another divisor writes the signed remainder and quotient. -/
theorem exec_div_of_ne_zero (h : readReg s rt ≠ 0#32) :
    ∃ t, exec (.div rs rt rd shamt) s = .next t ∧
      WritesHiLo s t ((readReg s rs).srem (readReg s rt)) ((readReg s rs).sdiv (readReg s rt)) := by
  rw [exec, execDiv, divSigned_of_ne_zero _ h]
  exact hiLoResult_spec s _ _

/-- R26, R125: DIVU by zero only reports. -/
theorem exec_divu_of_eq_zero (h : readReg s rt = 0#32) :
    ∃ t, exec (.divu rs rt rd shamt) s = .next t ∧ OnlyReports s t .divideByZero := by
  rw [exec, execDivu, h, divUnsigned_zero]
  exact reportOnly_spec s _

/-- R125: DIVU by another divisor writes the unsigned remainder and quotient. -/
theorem exec_divu_of_ne_zero (h : readReg s rt ≠ 0#32) :
    ∃ t, exec (.divu rs rt rd shamt) s = .next t ∧
      WritesHiLo s t (readReg s rs % readReg s rt) (readReg s rs / readReg s rt) := by
  rw [exec, execDivu, divUnsigned_of_ne_zero _ h]
  exact hiLoResult_spec s _ _

end

/-! ### The statements -/

/-- Settles O43: both products are written as the two halves of one 64-bit pattern, and the unsigned one fits. -/
theorem productsFillHiAndLo : Obligations.ProductsFillHiAndLo := by
  unfold Obligations.ProductsFillHiAndLo
  intro rs rt rd shamt s
  refine ⟨⟨decodeInstr_encode (.mult rs rt rd shamt), ?_⟩, decodeInstr_encode (.multu rs rt rd shamt), ?_⟩
  · rw [← sVal_eq_toInt, ← sVal_eq_toInt]
    exact productResult_spec s _
  · obtain ⟨t, h, l, ht, hw, hproduct⟩ := productResult_spec s (uVal (readReg s rs) * uVal (readReg s rt))
    refine ⟨t, h, l, ht, hw, ?_⟩
    rw [hproduct, toNat_bits64_uVal_mul]

/-- Settles O44: the three cases are the zero divisor's, the wrapped quotient's, and the quotient's that fits. -/
theorem divTruncatesTowardZero : Obligations.DivTruncatesTowardZero := by
  unfold Obligations.DivTruncatesTowardZero
  intro rs rt rd shamt s
  refine ⟨decodeInstr_encode (.div rs rt rd shamt), ?_⟩
  by_cases hzero : readReg s rt = 0#32
  · simp only [if_pos ((toInt_eq_zero_iff _).mpr hzero)]
    exact exec_div_of_eq_zero rs rt rd shamt hzero
  · simp only [if_neg (mt (toInt_eq_zero_iff _).mp hzero)]
    obtain ⟨t, ht, hw⟩ := exec_div_of_ne_zero rs rt rd shamt hzero
    refine ⟨t, ht, ?_⟩
    split
    · next hover =>
      obtain ⟨hrs, hrt⟩ := (div_overflow_iff _ _).mp hover
      rw [hrs, hrt] at hw
      exact hw
    · rw [← srem_eq_ofInt_tmod, ← sdiv_eq_ofInt_tdiv]
      exact hw

/-- Settles O45: the two cases of the divisor. -/
theorem divuDividesUnsigned : Obligations.DivuDividesUnsigned := by
  unfold Obligations.DivuDividesUnsigned
  intro rs rt rd shamt s
  refine ⟨decodeInstr_encode (.divu rs rt rd shamt), ?_⟩
  by_cases hzero : readReg s rt = 0#32
  · simp only [hzero, BitVec.toNat_zero, if_true]
    exact exec_divu_of_eq_zero rs rt rd shamt hzero
  · simp only [if_neg (BitVec.toNat_pos_of_ne_zero hzero).ne']
    rw [← BitVec.umod_def, ← BitVec.udiv_def]
    exact exec_divu_of_ne_zero rs rt rd shamt hzero

/-- Settles O46: the laws are those of the quotient and remainder the handlers write. -/
theorem divisionLaw : Obligations.DivisionLaw := by
  unfold Obligations.DivisionLaw
  intro rs rt rd shamt s
  refine ⟨fun hzero hfits => ?_, fun hzero => ?_, fun hzero => ?_, fun hzero =>
    ⟨exec_div_of_eq_zero rs rt rd shamt hzero, exec_divu_of_eq_zero rs rt rd shamt hzero⟩⟩
  · obtain ⟨t, ht, hhi, hlo, -, -, -, hreports⟩ := exec_div_of_ne_zero rs rt rd shamt hzero
    refine ⟨t, ht, hreports, ?_⟩
    rw [hhi, hlo]
    exact ⟨(toInt_sdiv_mul_add_toInt_srem hfits).symm, abs_toInt_srem_lt _ hzero, toInt_srem_eq_zero_or_sign_eq _ _⟩
  · obtain ⟨t, ht, hhi, hlo, -⟩ := exec_div_of_ne_zero rs rt rd shamt hzero
    exact ⟨t, ht, by rw [hhi, hlo, sdiv_mul_add_srem]⟩
  · obtain ⟨t, ht, hhi, hlo, -, -, -, hreports⟩ := exec_divu_of_ne_zero rs rt rd shamt hzero
    refine ⟨t, ht, hreports, ?_⟩
    rw [hhi, hlo, BitVec.toNat_udiv, BitVec.toNat_umod]
    exact ⟨(Nat.div_add_mod' _ _).symm, Nat.mod_lt _ (BitVec.toNat_pos_of_ne_zero hzero)⟩

/-- Settles O47: the products of O43 fit in 64 bits, and the division laws are those of O46, with the overflow case
named by its numbers. -/
theorem reconstructionLaws : Obligations.ReconstructionLaws := by
  unfold Obligations.ReconstructionLaws
  intro rs rt rd shamt s
  obtain ⟨⟨-, t, -, -, ht, ⟨rfl, rfl, -⟩, hsigned⟩, -, u, -, -, hu, ⟨rfl, rfl, -⟩, hunsigned⟩ :=
    productsFillHiAndLo rs rt rd shamt s
  obtain ⟨hdiv, -, hdivu, -⟩ := divisionLaw rs rt rd shamt s
  refine ⟨⟨t, ht, ?_⟩, ⟨u, hu, hunsigned⟩, fun hzero hfits => ?_, fun hzero => ?_⟩
  · rw [hsigned, toInt_ofInt_mul]
  · obtain ⟨t, ht, -, hlaw, -⟩ := hdiv hzero (mt (div_overflow_iff _ _).mpr hfits)
    exact ⟨t, ht, hlaw.symm⟩
  · obtain ⟨t, ht, -, hlaw, -⟩ := hdivu hzero
    exact ⟨t, ht, hlaw.symm⟩

/-- Settles O48: the value read is the accumulator's. -/
theorem movesCopyTheAccumulators : Obligations.MovesCopyTheAccumulators := by
  unfold Obligations.MovesCopyTheAccumulators
  intro rs rt rd shamt s
  exact ⟨decodes_and_writesReg (i := .mfhi rs rt rd shamt) rfl,
    decodes_and_writesReg (i := .mflo rs rt rd shamt) rfl⟩

end Sys2Proof.Machine
end

section
/-! PROOFS. The immediate operations: every one decodes from its word and writes one value to `rt`; what is left to each
is that value, from the immediate widened by sign or by zeros (spec/43_immediate.md R129–R134). -/

namespace Sys2Proof.Machine

/-! ### The widened immediate -/

/-- R67: sign extension keeps the immediate's signed value. -/
theorem toInt_immSigned (imm : BitVec 16) : (immSigned imm).toInt = imm.toInt :=
  BitVec.toInt_signExtend_of_le (by decide)

/-- R67: zero extension keeps the bits of the immediate. -/
theorem getLsbD_immUnsigned {i : Nat} (hi : i < 16) (imm : BitVec 16) :
    (immUnsigned imm).getLsbD i = imm.getLsbD i := by
  have hword : i < 32 := by omega
  rw [immUnsigned, zext32, BitVec.getLsbD_setWidth, decide_eq_true hword, Bool.true_and]

/-- R67: zero extension leaves the high half 0. -/
theorem extractLsb'_high_immUnsigned (imm : BitVec 16) : (immUnsigned imm).extractLsb' 16 16 = 0#16 := by
  obtain ⟨-, -, hhigh, -⟩ := extensionsReplicateOrPad.1 imm
  exact hhigh

/-! ### The statements -/

/-- Settles O49: both values are the sum of the patterns, which is the signed sum, wrapped. -/
theorem immediateSumsSignExtend : Obligations.ImmediateSumsSignExtend := by
  unfold Obligations.ImmediateSumsSignExtend
  intro rs rt imm s
  have hsum : BitVec.ofInt 32 ((readReg s rs).toInt + imm.toInt) = readReg s rs + immSigned imm := by
    rw [← bits32_sVal_add, bits32, sVal_eq_toInt, sVal_eq_toInt, toInt_immSigned]
  refine ⟨?_, decodes_and_writesReg (i := .addiu rs rt imm) rfl, hsum⟩
  rw [hsum]
  exact decodes_and_writesReg (i := .addi rs rt imm) (congrArg (regResult s rt) (bits32_sVal_add _ _))

/-- Settles O50: the values are the words of the two comparisons with the same operand, the sign-extended immediate. -/
theorem immediateComparisonsSignExtend : Obligations.ImmediateComparisonsSignExtend := by
  unfold Obligations.ImmediateComparisonsSignExtend
  intro rs rt imm s
  rw [← toInt_immSigned, ← lessSigned_eq_ite, ← lessUnsigned_eq_ite]
  exact ⟨decodes_and_writesReg (i := .slti rs rt imm) rfl, decodes_and_writesReg (i := .sltiu rs rt imm) rfl⟩

/-- Settles O51: bit by bit in the low half, and with the zero half of the operand in the high half. -/
theorem immediateLogicZeroExtends : Obligations.ImmediateLogicZeroExtends := by
  unfold Obligations.ImmediateLogicZeroExtends
  intro rs rt imm s
  refine ⟨decodes_and_writesReg_of (i := .andi rs rt imm) rfl ⟨fun i hi => ?_, ?_⟩,
    decodes_and_writesReg_of (i := .ori rs rt imm) rfl ⟨fun i hi => ?_, ?_⟩⟩
  · rw [BitVec.getLsbD_and, getLsbD_immUnsigned hi]
  · rw [BitVec.extractLsb'_and, extractLsb'_high_immUnsigned, BitVec.and_zero]
  · rw [BitVec.getLsbD_or, getLsbD_immUnsigned hi]
  · rw [BitVec.extractLsb'_or, extractLsb'_high_immUnsigned, BitVec.or_zero]

end Sys2Proof.Machine
end

section
/-! PROOFS. Branches and jumps: each decodes from its word and writes pc once, at the address `P` of the transfer; and a
call with its return, two steps of the machine that resume at `P + 8` (spec/44_control.md R136–R140,
spec/70_reset_and_hazards.md R185). -/

namespace Sys2Proof.Machine

/-! ### The handlers -/

/-- A handler that is a jump writes pc and nothing else, and its instruction's word decodes to it. -/
theorem decodes_and_writesPc {i : Instr} {s : State} {target : Word} (h : exec i s = jumpResult s target) :
    decodeInstr (encode i) = some i ∧ ∃ t, exec i s = .next t ∧ WritesPc s t target := by
  rw [h]
  exact ⟨decodeInstr_encode i, jumpResult_spec s target⟩

/-- R69: the jump target of the handler at address `P` lies in the region of `P + 4`. -/
theorem jumpTarget_at {P : Word} {s : State} (hP : s.pc = P + 4#32) (a : BitVec 26) :
    jumpTarget s a = (((P + 4#32) &&& 0xF0000000#32) ||| (a.setWidth 32 <<< 2)) := by
  rw [jumpTarget, hP]

/-- R139: the link of JAL at address `P` is `P + 8`. -/
theorem linkAddress_at {P : Word} {s : State} (hP : s.pc = P + 4#32) : linkAddress s = P + 8#32 := by
  rw [linkAddress, hP, BitVec.add_assoc]
  rfl

/-- Settles O53: each word is its instruction's, and the branch writes pc to the target or leaves it at `P + 4`. -/
theorem branchesCompareAndJump : Obligations.BranchesCompareAndJump := by
  unfold Obligations.BranchesCompareAndJump
  intro rs rt imm P s hP
  exact ⟨⟨decodeInstr_encode (.beq rs rt imm), exec_beq_spec rs rt imm hP⟩,
    ⟨decodeInstr_encode (.bne rs rt imm), exec_bne_spec rs rt imm hP⟩⟩

/-- Settles O54: the handler is a jump to the pseudo-direct target of the advanced pc. -/
theorem jumpGoesToThePseudoDirectTarget : Obligations.JumpGoesToThePseudoDirectTarget := by
  unfold Obligations.JumpGoesToThePseudoDirectTarget
  intro a P s hP
  rw [← jumpTarget_at hP]
  exact decodes_and_writesPc (i := .j a) rfl

/-- Settles O55: the handler is a jump with a link, computed from the advanced pc; register 31 alone takes the link. -/
theorem jalLinksPlusEight : Obligations.JalLinksPlusEight := by
  unfold Obligations.JalLinksPlusEight
  intro a P s hP
  obtain ⟨t, hexec, hpc, hreg, hrest⟩ := linkResult_spec s (jumpTarget s a) (linkAddress s)
  rw [jumpTarget_at hP] at hpc
  refine ⟨decodeInstr_encode (.jal a), t, hexec, ?_, fun q hq => ?_, hpc, hrest⟩
  · rw [hreg, if_pos rfl, linkAddress_at hP]
  · rw [hreg, if_neg hq]

/-- Settles O56: the handler is a jump to the register's value. -/
theorem jrCopiesTheRegister : Obligations.JrCopiesTheRegister := by
  unfold Obligations.JrCopiesTheRegister
  intro rs rt rd shamt s
  exact decodes_and_writesPc (i := .jr rs rt rd shamt) rfl

/-! ### A call and its return -/

/-- One step of the machine where the word of `i` stands at pc is the handler of `i` in the advanced state. -/
theorem step_of_fetchWord {s : State} {w : Word} {i : Instr} (hfetch : fetchWord s (s.pc.toNat / 4) = some w)
    (hi : decodeInstr w = some i) : step s = exec i (advancePc s) := by
  obtain ⟨-, hstep, -⟩ := stepRunsTheDecodedInstruction s w i hfetch hi
  exact hstep

/-- Settles O57: JAL at `P` leaves `P + 8` in register 31 and the program array as it was, so the next step finds JR at
the target and copies register 31 into pc. -/
theorem callAndReturnResumeAtPlusEight : Obligations.CallAndReturnResumeAtPlusEight := by
  unfold Obligations.CallAndReturnResumeAtPlusEight
  intro a target s htarget hcall hreturn
  obtain ⟨hdecodeJal, t, hexecJal, hlink, -, hpc, -, -, ⟨hsameWord, -⟩, hreportJal, -⟩ :=
    jalLinksPlusEight a s.pc (advancePc s) rfl
  have htpc : t.pc = target := hpc.trans htarget.symm
  have hwordJr : encR 31 0 0 0 0x08#6 = 0x03E00008#32 := by decide
  have hfetchJr : fetchWord t (t.pc.toNat / 4) = some (encR 31 0 0 0 0x08#6) := by
    rw [htpc, hwordJr, hsameWord]
    exact hreturn
  obtain ⟨hdecodeJr, u, hexecJr, hupc, -, -, -, -, hreportJr, -⟩ := jrCopiesTheRegister 31 0 0 0 (advancePc t)
  refine ⟨t, u, ?_, htpc, hlink, ?_, ?_, ?_⟩
  · rw [step_of_fetchWord hcall hdecodeJal, hexecJal]
  · rw [step_of_fetchWord hfetchJr hdecodeJr, hexecJr]
  · rw [hupc, readReg_advancePc]
    exact hlink
  · rw [hreportJr, advancePc_history, hreportJal, advancePc_history]

end Sys2Proof.Machine
end

section
/-! PROOFS. The recognized opcodes without a handler: each is the I-format default handler with its own opcode, whose
whole effect is one report (spec/45_unhandled.md R143–R152). -/

namespace Sys2Proof.Machine

theorem defaultHandler_spec (s : State) (f : Format) (c : Code) :
    ∃ t, defaultHandler s f c = .next t ∧ OnlyReports s t (.unhandledInstruction f c) :=
  reportOnly_spec s _

/-- R101, R143: an instruction without a handler runs the default handler of its record, which reads no operand field. -/
theorem exec_eq_defaultHandler {i : Instr} (h : handled i = false) (s : State) :
    exec i s = defaultHandler s i.toRecord.format i.toRecord.code := by
  cases i
  case lui | lw | lbu | lhu | sb | sh | sw | ll | sc => rfl
  all_goals cases h

/-- R143: the whole effect of an instruction without a handler is the report of its record's format and code. -/
theorem exec_onlyReports_of_not_handled {i : Instr} (h : handled i = false) (s : State) :
    ∃ t, exec i s = .next t ∧ OnlyReports s t (.unhandledInstruction i.toRecord.format i.toRecord.code) := by
  rw [exec_eq_defaultHandler h]
  exact defaultHandler_spec s _ _

/-- Settles O20: none of the nine has a handler, and the record of each has format I and the opcode listed. -/
theorem unhandledInstructionsOnlyReport : Obligations.UnhandledInstructionsOnlyReport := by
  unfold Obligations.UnhandledInstructionsOnlyReport
  intro rs rt imm s
  exact ⟨exec_onlyReports_of_not_handled (i := .lui rs rt imm) rfl s,
    exec_onlyReports_of_not_handled (i := .lw rs rt imm) rfl s,
    exec_onlyReports_of_not_handled (i := .lbu rs rt imm) rfl s,
    exec_onlyReports_of_not_handled (i := .lhu rs rt imm) rfl s,
    exec_onlyReports_of_not_handled (i := .sb rs rt imm) rfl s,
    exec_onlyReports_of_not_handled (i := .sh rs rt imm) rfl s,
    exec_onlyReports_of_not_handled (i := .sw rs rt imm) rfl s,
    exec_onlyReports_of_not_handled (i := .ll rs rt imm) rfl s,
    exec_onlyReports_of_not_handled (i := .sc rs rt imm) rfl s⟩

end Sys2Proof.Machine
end

section
/-! PROOFS. The host's loop and reset (spec/70_reset_and_hazards.md R171–R177). -/

namespace Sys2Proof.Machine

/-! ### The host's loop -/

/-- A run of a machine whose first step answers `u` goes on from `u`. -/
theorem run_succ_of_next {M : Host.Core} {s u : M.State} (h : M.step s = .next u) (n : Nat) :
    M.run (n + 1) s = M.run n u := by
  rw [Host.Core.run, h]

/-- R176: the bounds check of the fetch index, which is `floor(u(pc) / 4)` (R42). -/
theorem runOver_iff (s : State) : runOver s = true ↔ programLength s ≤ s.pc.toNat / 4 := by
  rw [runOver, decide_eq_true_iff, toNat_fetchIndex]

theorem not_runOver_iff (s : State) : ¬ runOver s = true ↔ s.pc.toNat / 4 < programLength s :=
  (not_congr (runOver_iff s)).trans Nat.not_le

theorem runHost_of_runOver {s : State} (h : runOver s = true) (fuel : Nat) : runHost fuel s = .final s := by
  cases fuel <;> exact if_pos h

theorem runHost_zero_of_not_runOver {s : State} (h : ¬ runOver s = true) : runHost 0 s = .stopped s := if_neg h

/-- R175: inside the array the core's step answers, and the loop goes on from its answer with one step less. -/
theorem runHost_succ_of_not_runOver {s : State} (h : ¬ runOver s = true) :
    ∃ u, step s = .next u ∧ ∀ n, runHost (n + 1) s = runHost n u := by
  obtain ⟨hanswers, -⟩ := stepAnswersExactlyInsideTheArray s
  obtain ⟨u, hu⟩ := hanswers ((not_runOver_iff s).mp h)
  have hcycle : cycle s = .next u := hu
  exact ⟨u, hu, fun n => by rw [runHost, if_neg h, hcycle]⟩

/-- The two ends of the loop: the bounds check fails after at most `fuel` steps of the core (R176), or it still holds
after exactly `fuel` of them (R177). -/
theorem runHost_cases (fuel : Nat) (s : State) :
    (∃ t, runHost fuel s = .final t ∧ runOver t = true ∧ ∃ n ≤ fuel, Host.Core.run core n s = .next t) ∨
    (∃ t, runHost fuel s = .stopped t ∧ ¬ runOver t = true ∧ Host.Core.run core fuel s = .next t) := by
  induction fuel generalizing s with
  | zero =>
    by_cases hover : runOver s = true
    · exact .inl ⟨s, runHost_of_runOver hover 0, hover, 0, Nat.le_refl 0, rfl⟩
    · exact .inr ⟨s, runHost_zero_of_not_runOver hover, hover, rfl⟩
  | succ fuel ih =>
    by_cases hover : runOver s = true
    · exact .inl ⟨s, runHost_of_runOver hover _, hover, 0, Nat.zero_le _, rfl⟩
    · obtain ⟨u, hstep, hloop⟩ := runHost_succ_of_not_runOver hover
      have hrunSucc := run_succ_of_next (M := core) hstep
      rcases ih u with ⟨t, hfinal, hend, n, hn, hrun⟩ | ⟨t, hstopped, hend, hrun⟩
      · exact .inl ⟨t, (hloop fuel).trans hfinal, hend, n + 1, Nat.succ_le_succ hn, (hrunSucc n).trans hrun⟩
      · exact .inr ⟨t, (hloop fuel).trans hstopped, hend, (hrunSucc fuel).trans hrun⟩

/-- Settles O34: the loop has one of its two ends, and the bounds check there compares pc / 4 with the array's length. -/
theorem hostRunEndsOutsideTheArray : Obligations.HostRunEndsOutsideTheArray := by
  unfold Obligations.HostRunEndsOutsideTheArray
  intro fuel s t
  rcases runHost_cases fuel s with ⟨u, hfinal, hover, hrun⟩ | ⟨u, hstopped, hover, hrun⟩
  · rw [hfinal]
    refine ⟨fun h => ?_, nofun⟩
    cases h
    exact ⟨(runOver_iff t).mp hover, hrun⟩
  · rw [hstopped]
    refine ⟨nofun, fun h => ?_⟩
    cases h
    exact ⟨(not_runOver_iff t).mp hover, hrun⟩

/-! ### Reset -/

/-- R171: the storage of every register after reset, register 0 like the others. -/
theorem reset_x (i : Nat) (hi : i < 32) : State.reset.x[i] = 0x00000000#32 := Vector.getElem_replicate hi

theorem readReg_reset (r : RegIdx) : readReg State.reset r = 0x00000000#32 := by
  rw [readReg, readRegWith, reset_x, ite_self]

/-- Settles O12: the storage is zero, so every register reads zero, and there is no report yet. -/
theorem resetIsAllZero : Obligations.ResetIsAllZero :=
  ⟨readReg_reset, fun i => reset_x i i.isLt, rfl, rfl, rfl, rfl⟩

/-- R173: what the reset event answers is made of the program array alone. -/
theorem applyReset_congr {s s' : State} (h : s'.program = s.program) : applyReset s' = applyReset s :=
  congrArg (withProgram State.reset) h

theorem sameArch_applyReset (s : State) : SameArch State.reset (applyReset s) := ⟨fun _ => rfl, rfl, rfl, rfl⟩

/-- R172: the first fetch after reset is at index 0. -/
theorem fetchIndex_applyReset (s : State) : fetchIndex (applyReset s) = 0#30 := by
  rw [fetchIndex, applyReset_pc, BitVec.extractLsb'_zero]

/-- Settles O13: the answer is the reset state with the program array of the state before. -/
theorem resetEventStartsANewRun : Obligations.ResetEventStartsANewRun := by
  unfold Obligations.ResetEventStartsANewRun
  exact fun s => ⟨applyReset s, rfl, sameArch_applyReset s, sameProgram_of_eq (applyReset_program s), rfl,
    fetchIndex_applyReset s, rfl, fun _ hprogram => congrArg Host.Outcome.next (applyReset_congr hprogram)⟩

end Sys2Proof.Machine
end

section
/-! PROOFS. Sample words and a sum undone: words that the encoder writes for their instructions
(spec/95_test_vectors.md section 2), and SUB after ADD as the difference of the sum (E7). -/

namespace Sys2Proof

/-- Settles O7: each of the ten words is what the encoder writes for its instruction; the other two have an opcode and a
funct outside the code lists. -/
theorem sampleWordsDecode : Obligations.SampleWordsDecode := by
  unfold Obligations.SampleWordsDecode
  exact ⟨decodeInstr_encode (.add 1 2 3 0), decodeInstr_encode (.beq 1 2 42), decodeInstr_encode (.j 10),
    decodeInstr_encode (.jal 6), decodeInstr_encode (.srl 0 8 12 4), decodeInstr_encode (.div 8 9 0 0),
    decodeInstr_encode (.mfhi 0 0 11 0), decodeInstr_encode (.slti 8 9 10), decodeInstr_encode (.lui 0 8 0x1234),
    decodeInstr_encode (.sc 1 2 0), decode_of_bad_opcode (w := 0xFC000000#32) (by decide),
    decode_of_bad_funct (w := 0x0000003F#32) rfl (by decide)⟩

end Sys2Proof

namespace Sys2Proof.Machine

/-- R110: ADD writes the sum of the patterns. -/
theorem exec_add_writesReg (rs rt rd shamt : BitVec 5) (s : State) :
    ∃ t, exec (.add rs rt rd shamt) s = .next t ∧ WritesReg s t rd (readReg s rs + readReg s rt) :=
  exec_writesReg (congrArg (regResult s rd) (bits32_sVal_add _ _))

/-- R112: SUB writes the difference of the patterns. -/
theorem exec_sub_writesReg (rs rt rd shamt : BitVec 5) (s : State) :
    ∃ t, exec (.sub rs rt rd shamt) s = .next t ∧ WritesReg s t rd (readReg s rs - readReg s rt) :=
  exec_writesReg (congrArg (regResult s rd) (bits32_sVal_sub _ _))

theorem WritesReg.readReg_same {s t : State} {rd : RegIdx} {v : Word} (h : WritesReg s t rd v) (hrd : rd ≠ 0#5) :
    readReg t rd = v :=
  (h.1 rd).trans (if_pos ⟨rfl, hrd⟩)

theorem WritesReg.readReg_of_ne {s t : State} {rd q : RegIdx} {v : Word} (h : WritesReg s t rd v) (hq : q ≠ rd) :
    readReg t q = readReg s q :=
  (h.1 q).trans (if_neg fun hand => hq hand.1)

/-- Settles O41: SUB finds the sum in `rd` and `rt` as ADD found it, and the difference of the sum is the first operand. -/
theorem addThenSubRestores : Obligations.AddThenSubRestores := by
  unfold Obligations.AddThenSubRestores
  intro rs rt rd shamt s hrd hne
  obtain ⟨t, hadd, hsum⟩ := exec_add_writesReg rs rt rd shamt s
  obtain ⟨t', hsub, hdiff⟩ := exec_sub_writesReg rd rt rd shamt t
  refine ⟨t, t', hadd, hsub, ?_⟩
  calc readReg t' rd = readReg t rd - readReg t rt := hdiff.readReg_same hrd
    _ = readReg s rs + readReg s rt - readReg s rt := by rw [hsum.readReg_same hrd, hsum.readReg_of_ne hne.symm]
    _ = readReg s rs := BitVec.add_sub_cancel _ _

end Sys2Proof.Machine
end
